-- ==== Sys2Proof/Word.lean ====
section
/-! DEFINITION. The word types of the halide core: the fixed widths of 00_scope.md rule R5. -/

namespace Sys2Proof

/-- One byte of the program buffer, and one register-index operand (REGIDXW = 8; rules R5, R6). -/
abbrev Byte := BitVec 8

/-- The 16-bit immediate of LOAD as a bit pattern (IMMW = 16; rules R5, R49). -/
abbrev Half := BitVec 16

/-- A general register and `remainder`: 32 bits (XLEN = 32), read as a signed integer by `BitVec.toInt` and as the
unsigned pattern `bits32` by `BitVec.toNat` (rules R5, R7, R10, R17). -/
abbrev Word := BitVec 32

/-- A program counter value: 32 bits, unsigned (PCW = 32; rules R5, R13). -/
abbrev Addr := BitVec 32

/-- The number of an existing general register: NREGS = 32 (rules R5, R10). -/
abbrev RegIdx := Fin 32

end Sys2Proof
end

