-- ==== Sys2Proof/Config.lean ====
section
/-! DEFINITION. What an implementation of the core fixes: the parameters of 00_scope.md rule R5 that are model arguments, with
the value this spec takes for each. There is no free value on this hardware (93_implementation_defined.md, end of part 1). -/

namespace Sys2Proof

/-- The 15 defined instructions as the decoder names them (rule R2, in the order of the table of rule R52). The decode result
ILLEGAL is no member: it is `none` of `decodeOpcode`. -/
inductive Opcode where
  | halt | not | jmp | jmpf | jmpb | jmpif | eq | gt | gte | add | sub | mul | div | pow | load
deriving DecidableEq, Repr

/-- Every defined instruction once, in the order of rule R52. -/
def Opcode.all : List Opcode :=
  [.halt, .not, .jmp, .jmpf, .jmpb, .jmpif, .eq, .gt, .gte, .add, .sub, .mul, .div, .pow, .load]

/-- The five operand shapes of rule R45. -/
inductive Format where
  | z | r | rr | rrr | ri
deriving DecidableEq, Repr

/-- The format of each instruction (rule R45). -/
def Opcode.format : Opcode → Format
  | .halt | .not => .z
  | .jmp | .jmpf | .jmpb | .jmpif => .r
  | .eq | .gt | .gte => .rr
  | .add | .sub | .mul | .div | .pow => .rrr
  | .load => .ri

/-- `OperandBytes(k)`, the number of bytes after the opcode byte (rule R46). -/
def Opcode.operandBytes (k : Opcode) : Nat :=
  match k.format with
  | .z => 0
  | .r => 1
  | .rr => 2
  | .rrr | .ri => 3

/-- `OPCODE_MAP`: the byte assigned to each defined instruction (rules R5, R52). -/
structure OpcodeMap where
  halt : Byte
  not : Byte
  jmp : Byte
  jmpf : Byte
  jmpb : Byte
  jmpif : Byte
  eq : Byte
  gt : Byte
  gte : Byte
  add : Byte
  sub : Byte
  mul : Byte
  div : Byte
  pow : Byte
  load : Byte
deriving DecidableEq, Repr

/-- `OPCODE_MAP(k)`. -/
def OpcodeMap.code (m : OpcodeMap) : Opcode → Byte
  | .halt => m.halt
  | .not => m.not
  | .jmp => m.jmp
  | .jmpf => m.jmpf
  | .jmpb => m.jmpb
  | .jmpif => m.jmpif
  | .eq => m.eq
  | .gt => m.gt
  | .gte => m.gte
  | .add => m.add
  | .sub => m.sub
  | .mul => m.mul
  | .div => m.div
  | .pow => m.pow
  | .load => m.load

/-- The opcode map of rule R52: 0x00 to 0x0E in the order of the encoding table (decision D2). -/
def OpcodeMap.spec : OpcodeMap where
  halt := 0x00
  not := 0x01
  jmp := 0x02
  jmpf := 0x03
  jmpb := 0x04
  jmpif := 0x05
  eq := 0x06
  gt := 0x07
  gte := 0x08
  add := 0x09
  sub := 0x0A
  mul := 0x0B
  div := 0x0C
  pow := 0x0D
  load := 0x0E

/-- `JUMP_SET`: which jumps the decoder defines (rules R5, R58). -/
inductive JumpSet where
  | full | relativeOnly | jumpifOnly
deriving DecidableEq, Repr

/-- Which instructions `JUMP_SET` admits (rule R58): RELATIVE_ONLY removes JMPIF, JUMPIF_ONLY removes JMPF and JMPB. -/
def JumpSet.admits : JumpSet → Opcode → Bool
  | .relativeOnly, .jmpif => false
  | .jumpifOnly, .jmpf | .jumpifOnly, .jmpb => false
  | _, _ => true

/-- `REL_BASE`: the base of JMPF and JMPB (rules R5, R89). -/
inductive RelBase where
  | next | self
deriving DecidableEq, Repr

/-- `OVERFLOW_MODE`: what an arithmetic result outside the signed 32-bit range does (rules R5, R76). -/
inductive OverflowMode where
  | wrap | fault
deriving DecidableEq, Repr

/-- The parameters of rule R5 that a launch chooses, beside the program itself. -/
structure Params where
  opcodeMap : OpcodeMap
  jumpSet : JumpSet
  relBase : RelBase
  overflowMode : OverflowMode
deriving DecidableEq, Repr

/-- The value this spec takes for every parameter (rule R5): the map of R52, FULL, NEXT, WRAP. -/
def Params.spec : Params where
  opcodeMap := .spec
  jumpSet := .full
  relBase := .next
  overflowMode := .wrap

end Sys2Proof
end

