-- ==== Sys2Proof/Machine/Alu.lean ====
section
/-! DEFINITION. The arithmetic of the ALU: exact integers, narrowed once (rules R7, R76). -/

namespace Sys2Proof.Machine

/-- The value lies in the signed 32-bit range (rule R7). -/
def fits32 (v : Int) : Bool := decide (-2147483648 ≤ v) && decide (v ≤ 2147483647)

/-- `arith32(v)` (rules R7, R76): `v` where it fits; else its low 32 bits under WRAP, and `none` for ArithmeticOverflow under
FAULT. -/
def arith32 (mode : OverflowMode) (v : Int) : Option Word :=
  if fits32 v then some (BitVec.ofInt 32 v)
  else
    match mode with
    | .wrap => some (BitVec.ofInt 32 v)
    | .fault => none

/-- `arith32(a ^ e)` for an exponent below `2 ^ bits` (rule R75), by squaring and narrowing each product: the exact power of a
large exponent has billions of digits. That it IS `arith32` of the exact power, in both modes, is
`Sys2Proof.Laws.pow32_eq_arith32` (log 12). -/
def pow32 (mode : OverflowMode) (a : Word) : Nat → Nat → Option Word
  | 0, _ => some 1
  | bits + 1, e =>
    match pow32 mode a bits (e / 2) with
    | none => none
    | some h =>
      match arith32 mode (h.toInt * h.toInt) with
      | none => none
      | some q => if e % 2 = 1 then arith32 mode (q.toInt * a.toInt) else some q

end Sys2Proof.Machine
end

