-- ==== Sys2Proof/Machine/State.lean ====
section
/-! DEFINITION. The state of the core (10_state.md rules R10 to R21, R25), the reasons a step can stop, and the state after reset. -/

namespace Sys2Proof.Machine

/-- The two values of `run_state` (rule R18). -/
inductive RunState where
  | running | halted
deriving DecidableEq, Repr

/-- The fatal faults of rule R101. Raising one is a described state change (rule R103), hence a next state of the model. -/
inductive Cause where
  | illegalOpcode | divideByZero | negativeExponent | registerIndexRange | fetchOverrun | pcRange | arithmeticOverflow
deriving DecidableEq, Repr

/-- The contents of the program buffer, as the pairs (address, byte) of its non-zero bytes in rising order of address (log 2). -/
abbrev Memory := List Host.Cell

/-- The machine: the architectural state of rule R20, then the launch data of rule R21, constant from reset to reset. -/
structure State where
  /-- The general registers `x[0]` to `x[31]` (R10). -/
  x : Vector Word 32
  /-- The program counter (R13, R14). -/
  pc : Addr
  /-- The comparison flag (R16). -/
  cmp : Bool
  /-- The remainder of the most recent division (R17). -/
  remainder : Word
  /-- `run_state` (R18). -/
  runState : RunState
  /-- `fault_cause`: 0, or the code of the fault that stopped the core (R19, R101). -/
  faultCause : BitVec 8
  /-- `fault_info`: the datum of that fault (R19, R101). -/
  faultInfo : BitVec 32
  /-- `Prog`, the bytes below `L` (R21, R31). -/
  prog : Memory
  /-- `L`, the number of bytes of the program (R21, R31): 0 to 2^32 - 1, so the type is its range (log 18). -/
  progLen : BitVec 32
  /-- The configuration parameters of the launch (R5, R21). -/
  params : Params
deriving DecidableEq, Repr

/-- Why a step gives no next state. No fatal fault of rule R101 is among these. -/
inductive Fault where
  /-- A byte at or beyond `L` was asked for. Raised by step only, where the fetch unit finds no byte; the tests of rule R22
  lines 2 and 8 come first, so no state reaches it. Safe: the model stops where the spec defines no byte (rule R31). -/
  | readOutsideProgram
deriving DecidableEq, Repr

/-- Why an instruction is given no meaning. -/
inductive Refusal where
  /-- The instruction has no meaning in the model. Raised only in an arm of exec; no arm raises it now. Safe. -/
  | notModelled (mnemonic : String)
deriving DecidableEq, Repr

/-- The outcome of a step or of an instruction. -/
abbrev Result := Host.Outcome State Fault Refusal

/-- The state right after reset, every architectural field at the value of rule R25; no program is installed (log 3) and the
parameters are this spec's (log 4). -/
def State.reset : State where
  x := Vector.replicate 32 0
  pc := 0
  cmp := false
  remainder := 0
  runState := .running
  faultCause := 0
  faultInfo := 0
  prog := []
  progLen := 0
  params := .spec

end Sys2Proof.Machine
end

