-- ==== Sys2Proof/Machine/Ops.lean ====
section
/-! DEFINITION. The named operations over the program buffer, the registers and the run state, and raising a fatal fault. -/

namespace Sys2Proof.Machine

/-! ### The program buffer -/

/-- What an address that is not listed reads as, below `L` (log 2). -/
def Memory.unlisted : Byte := 0

/-- The byte stored at an address. -/
def Memory.read : Memory → Nat → Byte
  | [], _ => Memory.unlisted
  | (b, v) :: m, a => if b = a then v else Memory.read m a

/-- Store a byte, keeping the canonical form. Only the installation of a program does this: the core never writes memory (R35). -/
def Memory.write : Memory → Nat → Byte → Memory
  | [], a, v => if v = Memory.unlisted then [] else [(a, v)]
  | (b, u) :: m, a, v =>
    if a < b then (if v = Memory.unlisted then (b, u) :: m else (a, v) :: (b, u) :: m)
    else if a = b then (if v = Memory.unlisted then m else (a, v) :: m)
    else (b, u) :: Memory.write m a v

/-- Store consecutive bytes from an address upwards. -/
def Memory.writeBytes : Memory → Nat → List Byte → Memory
  | m, _, [] => m
  | m, a, v :: vs => Memory.writeBytes (Memory.write m a v) (a + 1) vs

/-- Addresses from `lo` on, strictly rising, each holding something other than what an unlisted address reads as. -/
def Memory.wfFrom : Nat → Memory → Bool
  | _, [] => true
  | lo, (a, v) :: m => decide (lo ≤ a) && (v != Memory.unlisted) && Memory.wfFrom (a + 1) m

/-- The canonical form of a program buffer. -/
def Memory.wf (m : Memory) : Bool := Memory.wfFrom 0 m

/-- `MemRead(addr, 1)`: defined for `addr + 1 <= L` only (rules R8, R31, R38). -/
def memRead (s : State) (a : Nat) : Option Byte :=
  if a < s.progLen.toNat then some (s.prog.read a) else none

/-- `MemRead(addr, 2)`: big-endian, defined for `addr + 2 <= L` only (rules R8, R36). -/
def memRead2 (s : State) (a : Nat) : Option Half :=
  match memRead s a, memRead s (a + 1) with
  | some hi, some lo => some (hi ++ lo)
  | _, _ => none

/-- `n` bytes from address `a` upwards; `none` when one of them does not exist. -/
def memReadBytes (s : State) (a : Nat) : Nat → Option (List Byte)
  | 0 => some []
  | n + 1 =>
    match memRead s a, memReadBytes s (a + 1) n with
    | some b, some bs => some (b :: bs)
    | _, _ => none

/-! ### Registers and control -/

/-- `x[i]` (rule R8): no register is hardwired (rule R10). -/
def readReg (s : State) (i : RegIdx) : Word := s.x[i]

/-- `x[i] <- v` (rule R8). -/
def writeReg (s : State) (i : RegIdx) (v : Word) : State := { s with x := s.x.set i v }

/-- `cmp <- b` (rule R16). -/
def writeCmp (s : State) (b : Bool) : State := { s with cmp := b }

/-- `remainder <- m` (rule R17). -/
def writeRemainder (s : State) (m : Word) : State := { s with remainder := m }

/-- `pc <- npc`, the sequential advance past an instruction of `len` bytes (rule R14). Inside a step it cannot wrap, since the
instruction lies below `L` (rule R15). -/
def advance (s : State) (len : Nat) : State := { s with pc := s.pc + BitVec.ofNat 32 len }

/-- `run_state <- Halted` and nothing else: halt by exhaustion (rule R22 line 2). -/
def halt (s : State) : State := { s with runState := .halted }

/-! ### Taking a fatal fault -/

/-- The code of each fault (rule R101). -/
def Cause.code : Cause → BitVec 8
  | .illegalOpcode => 1
  | .divideByZero => 2
  | .negativeExponent => 3
  | .registerIndexRange => 4
  | .fetchOverrun => 5
  | .pcRange => 6
  | .arithmeticOverflow => 7

/-- `raise F(info)` (rule R103), applied to the state before the instruction: the core halts with the cause and its datum, `pc`
stays the address `A` of the faulting instruction, and nothing the instruction would write is written. There is no return from
it (rule R108). -/
def raiseFault (s : State) (c : Cause) (info : BitVec 32) : State :=
  { s with runState := .halted, faultCause := c.code, faultInfo := info }

end Sys2Proof.Machine
end

