-- ==== Sys2Proof/Machine/Operands.lean ====
section
/-! DEFINITION. The operand forms: a register-index byte (rules R11, R48), the immediate of LOAD (rule R49), and the base of a
relative jump (rule R89). -/

namespace Sys2Proof.Machine

/-- The register an index byte names: 0 to 31; a larger byte names none and is never reduced modulo 32 (rules R11, R48). -/
def regIndex (b : Byte) : Option RegIdx :=
  if h : b.toNat < 32 then some ⟨b.toNat, h⟩ else none

/-- Go on with the register a byte names, or raise RegisterIndexRange with the byte (rules R11, R101). Applied to the operands
in encoding order, before the instruction executes (rule R22 line 11). -/
def withReg (s : State) (b : Byte) (k : RegIdx → Result) : Result :=
  match regIndex b with
  | some i => k i
  | none => .next (raiseFault s .registerIndexRange (b.setWidth 32))

/-- The immediate of LOAD as a register value: the 16-bit pattern sign-extended (rule R49). -/
def immValue (v : Half) : Word := v.signExtend 32

/-- The base of JMPF and JMPB as a mathematical integer: `A + 2` under NEXT, `A` under SELF (rule R89). -/
def jumpBase (s : State) : Int :=
  match s.params.relBase with
  | .next => (s.pc.toNat : Int) + 2
  | .self => (s.pc.toNat : Int)

end Sys2Proof.Machine
end

