-- ==== Sys2Proof/Machine/Arith.lean ====
section
/-! DEFINITION. The register-register arithmetic instructions, format RRR (40_arithmetic.md rules R70 to R77). -/

namespace Sys2Proof.Machine

/-- Write an ALU result to `x[rd]` and go on to the next instruction, or raise ArithmeticOverflow (rule R76). -/
def writeResult (s : State) (rd : RegIdx) (result : Option Word) : Result :=
  match result with
  | none => .next (raiseFault s .arithmeticOverflow 0)
  | some w => .next (advance (writeReg s rd w) 4)

/-- The common form of rule R70: check `r1`, `r2`, `rd` in that order, read both sources of the state before, go on. -/
def withRRR (r1 r2 rd : Byte) (s : State) (k : Word → Word → RegIdx → Result) : Result :=
  withReg s r1 fun i1 => withReg s r2 fun i2 => withReg s rd fun id => k (readReg s i1) (readReg s i2) id

/-- ADD (rule R71). -/
def execAdd (r1 r2 rd : Byte) (s : State) : Result :=
  withRRR r1 r2 rd s fun a b d => writeResult s d (arith32 s.params.overflowMode (a.toInt + b.toInt))

/-- SUB (rule R72). -/
def execSub (r1 r2 rd : Byte) (s : State) : Result :=
  withRRR r1 r2 rd s fun a b d => writeResult s d (arith32 s.params.overflowMode (a.toInt - b.toInt))

/-- MUL (rule R73). -/
def execMul (r1 r2 rd : Byte) (s : State) : Result :=
  withRRR r1 r2 rd s fun a b d => writeResult s d (arith32 s.params.overflowMode (a.toInt * b.toInt))

/-- DIV (rule R74): a zero divisor faults; else the quotient toward zero goes to `x[rd]` and `a - b * q` to `remainder`. -/
def execDiv (r1 r2 rd : Byte) (s : State) : Result :=
  withRRR r1 r2 rd s fun a b d =>
    if b.toInt = 0 then .next (raiseFault s .divideByZero 0)
    else
      match arith32 s.params.overflowMode (a.toInt.tdiv b.toInt) with
      | none => .next (raiseFault s .arithmeticOverflow 0)
      | some q =>
        .next (advance (writeRemainder (writeReg s d q) (BitVec.ofInt 32 (a.toInt - b.toInt * a.toInt.tdiv b.toInt))) 4)

/-- POW (rule R75): a negative exponent faults; an exponent has 31 bits. -/
def execPow (r1 r2 rd : Byte) (s : State) : Result :=
  withRRR r1 r2 rd s fun a e d =>
    if e.toInt < 0 then .next (raiseFault s .negativeExponent 0)
    else writeResult s d (pow32 s.params.overflowMode a 31 e.toInt.toNat)

end Sys2Proof.Machine
end

