-- ==== Sys2Proof/Machine/Flags.lean ====
section
/-! DEFINITION. The comparisons that compute `cmp`, the only flag (rules R16, R90): on signed values. -/

namespace Sys2Proof.Machine

/-- `a = b` (rule R91). -/
def cmpEq (a b : Word) : Bool := decide (a.toInt = b.toInt)

/-- `a > b`, signed (rule R92). -/
def cmpGt (a b : Word) : Bool := decide (b.toInt < a.toInt)

/-- `a >= b`, signed (rule R93). -/
def cmpGte (a b : Word) : Bool := decide (b.toInt ≤ a.toInt)

end Sys2Proof.Machine
end

