-- ==== Sys2Proof/Machine/Compare.lean ====
section
/-! DEFINITION. Comparison and flag operations, formats RR and Z (43_compare.md rules R90 to R95). -/

namespace Sys2Proof.Machine

/-- The common form of rule R90: check `r1`, then `r2`, overwrite `cmp` with the comparison, go on. -/
def compareWith (test : Word → Word → Bool) (r1 r2 : Byte) (s : State) : Result :=
  withReg s r1 fun i1 => withReg s r2 fun i2 =>
    .next (advance (writeCmp s (test (readReg s i1) (readReg s i2))) 3)

/-- EQ (rule R91). -/
def execEq (r1 r2 : Byte) (s : State) : Result := compareWith cmpEq r1 r2 s

/-- GT (rule R92). -/
def execGt (r1 r2 : Byte) (s : State) : Result := compareWith cmpGt r1 r2 s

/-- GTE (rule R93). -/
def execGte (r1 r2 : Byte) (s : State) : Result := compareWith cmpGte r1 r2 s

/-- NOT (rule R94). -/
def execNot (s : State) : Result := .next (advance (writeCmp s (!s.cmp)) 1)

end Sys2Proof.Machine
end

