-- ==== Sys2Proof/Machine/Jump.lean ====
section
/-! DEFINITION. Control transfer, format R (42_jumps.md rules R83 to R89). -/

namespace Sys2Proof.Machine

/-- A taken jump to the mathematical target `t` (rule R83): PcRange outside 0 to 2^32 - 1, `pc <- t` otherwise. -/
def jumpTo (s : State) (t : Int) : Result :=
  if t < 0 ∨ 4294967295 < t then .next (raiseFault s .pcRange 0)
  else .next { s with pc := BitVec.ofInt 32 t }

/-- JMP (rule R84): the register holds the byte offset. -/
def execJmp (r : Byte) (s : State) : Result :=
  withReg s r fun i => jumpTo s (readReg s i).toInt

/-- JMPF (rule R85). -/
def execJmpf (r : Byte) (s : State) : Result :=
  withReg s r fun i => jumpTo s (jumpBase s + (readReg s i).toInt)

/-- JMPB (rule R86). -/
def execJmpb (r : Byte) (s : State) : Result :=
  withReg s r fun i => jumpTo s (jumpBase s - (readReg s i).toInt)

/-- JMPIF (rule R87): the index is checked whether or not the jump is taken (decision D27); not taken goes on past the two
bytes of the instruction (decision D26). -/
def execJmpif (r : Byte) (s : State) : Result :=
  withReg s r fun i => if s.cmp then jumpTo s (readReg s i).toInt else .next (advance s 2)

end Sys2Proof.Machine
end

