-- ==== Sys2Proof/Machine/Load.lean ====
section
/-! DEFINITION. The register-immediate instruction, format RI (41_load.md rules R80, R81). -/

namespace Sys2Proof.Machine

/-- LOAD (rule R80): the sign-extended immediate replaces all of `x[r]`. -/
def execLoad (r : Byte) (v : Half) (s : State) : Result :=
  withReg s r fun i => .next (advance (writeReg s i (immValue v)) 4)

end Sys2Proof.Machine
end

