-- ==== Sys2Proof/Machine/System.lean ====
section
/-! DEFINITION. HALT and the illegal opcode (44_halt_illegal.md rules R96 to R98). -/

namespace Sys2Proof.Machine

/-- HALT (rule R96): a normal halt, with `pc` past the opcode byte (decision D25). -/
def execHalt (s : State) : Result := .next (advance (halt s) 1)

/-- ILLEGAL (rule R97): always IllegalOpcode, with the opcode byte as its datum. -/
def execIllegal (op : Byte) (s : State) : Result := .next (raiseFault s .illegalOpcode (op.setWidth 32))

end Sys2Proof.Machine
end

