-- ==== Sys2Proof/Syntax.lean ====
section
/-! DEFINITION. The instructions as data, one constructor per mnemonic of spec/opcode_table.json (rules R2, R45). -/

namespace Sys2Proof

/-- A decoded instruction. A register operand is the index byte as it stands in the stream, 0 to 255 (rule R48): the check
against NREGS belongs to execution (rule R11). -/
inductive Instr where
  /-- Stop the core normally (R96). -/
  | halt
  /-- Invert `cmp` (R94). -/
  | not
  /-- Absolute jump through `r` (R84). -/
  | jmp (r : Byte)
  /-- Relative jump forward by `x[r]` (R85). -/
  | jmpf (r : Byte)
  /-- Relative jump backward by `x[r]` (R86). -/
  | jmpb (r : Byte)
  /-- Absolute jump through `r` if `cmp` (R87). -/
  | jmpif (r : Byte)
  /-- `cmp <- x[r1] = x[r2]` (R91). -/
  | eq (r1 r2 : Byte)
  /-- `cmp <- x[r1] > x[r2]`, signed (R92). -/
  | gt (r1 r2 : Byte)
  /-- `cmp <- x[r1] >= x[r2]`, signed (R93). -/
  | gte (r1 r2 : Byte)
  /-- `x[rd] <- x[r1] + x[r2]` (R71). -/
  | add (r1 r2 rd : Byte)
  /-- `x[rd] <- x[r1] - x[r2]` (R72). -/
  | sub (r1 r2 rd : Byte)
  /-- `x[rd] <- x[r1] * x[r2]` (R73). -/
  | mul (r1 r2 rd : Byte)
  /-- `x[rd] <- x[r1] / x[r2]`, with `remainder` (R74). -/
  | div (r1 r2 rd : Byte)
  /-- `x[rd] <- x[r1] ^ x[r2]` (R75). -/
  | pow (r1 r2 rd : Byte)
  /-- `x[r] <- v` sign-extended; `v` is the 16-bit pattern (R80, R49). -/
  | load (r : Byte) (v : Half)
  /-- The decode result ILLEGAL, with the opcode byte that gave it (R97). -/
  | illegal (op : Byte)
deriving DecidableEq, Repr

/-- Which defined instruction this is; `none` for ILLEGAL. -/
def Instr.opcode : Instr → Option Opcode
  | .halt => some .halt
  | .not => some .not
  | .jmp _ => some .jmp
  | .jmpf _ => some .jmpf
  | .jmpb _ => some .jmpb
  | .jmpif _ => some .jmpif
  | .eq _ _ => some .eq
  | .gt _ _ => some .gt
  | .gte _ _ => some .gte
  | .add _ _ _ => some .add
  | .sub _ _ _ => some .sub
  | .mul _ _ _ => some .mul
  | .div _ _ _ => some .div
  | .pow _ _ _ => some .pow
  | .load _ _ => some .load
  | .illegal _ => none

end Sys2Proof
end

