-- ==== Sys2Proof/Machine/Dispatch.lean ====
section
/-! DEFINITION. The dispatch of a decoded instruction to its meaning: lines 11 to 13 of Step() (rule R22). -/

namespace Sys2Proof.Machine

def exec (i : Instr) (s : State) : Host.Outcome State Fault Refusal :=
  match i with
  | .halt => Sys2Proof.Machine.execHalt s
  | .not => Sys2Proof.Machine.execNot s
  | .jmp r => Sys2Proof.Machine.execJmp r s
  | .jmpf r => Sys2Proof.Machine.execJmpf r s
  | .jmpb r => Sys2Proof.Machine.execJmpb r s
  | .jmpif r => Sys2Proof.Machine.execJmpif r s
  | .eq r1 r2 => Sys2Proof.Machine.execEq r1 r2 s
  | .gt r1 r2 => Sys2Proof.Machine.execGt r1 r2 s
  | .gte r1 r2 => Sys2Proof.Machine.execGte r1 r2 s
  | .add r1 r2 rd => Sys2Proof.Machine.execAdd r1 r2 rd s
  | .sub r1 r2 rd => Sys2Proof.Machine.execSub r1 r2 rd s
  | .mul r1 r2 rd => Sys2Proof.Machine.execMul r1 r2 rd s
  | .div r1 r2 rd => Sys2Proof.Machine.execDiv r1 r2 rd s
  | .pow r1 r2 rd => Sys2Proof.Machine.execPow r1 r2 rd s
  | .load r v => Sys2Proof.Machine.execLoad r v s
  | .illegal op => Sys2Proof.Machine.execIllegal op s

end Sys2Proof.Machine
end

