-- ==== Sys2Proof/WellFormed.lean ====
section
/-! DEFINITION. Well-formed parameters and instructions: the constraint of rule R52 on OPCODE_MAP, and which instructions a
decoder with given parameters can produce (rules R51, R58). The field widths are types and need no check. -/

namespace Sys2Proof

/-- `OPCODE_MAP` is injective, with values below 32 (rules R5, R52). -/
def OpcodeMap.wf (m : OpcodeMap) : Bool :=
  (Opcode.all.map m.code).all (fun b => decide (b.toNat < 32)) && decide (Opcode.all.map m.code).Nodup

/-- The parameters are ones rule R5 admits: only OPCODE_MAP carries a constraint. -/
def Params.wf (p : Params) : Bool :=
  p.opcodeMap.wf

/-- A byte that some admitted instruction has as its opcode (rules R51, R58). -/
def Params.assigned (p : Params) (op : Byte) : Bool :=
  Opcode.all.any (fun k => p.jumpSet.admits k && (p.opcodeMap.code k == op))

/-- The instruction exists under these parameters: a defined instruction that JUMP_SET admits (rule R58), or ILLEGAL carrying
a byte assigned to none (rules R51, R53). -/
def Instr.wf (p : Params) (i : Instr) : Bool :=
  match i with
  | .illegal op => !p.assigned op
  | .halt => p.jumpSet.admits .halt
  | .not => p.jumpSet.admits .not
  | .jmp _ => p.jumpSet.admits .jmp
  | .jmpf _ => p.jumpSet.admits .jmpf
  | .jmpb _ => p.jumpSet.admits .jmpb
  | .jmpif _ => p.jumpSet.admits .jmpif
  | .eq _ _ => p.jumpSet.admits .eq
  | .gt _ _ => p.jumpSet.admits .gt
  | .gte _ _ => p.jumpSet.admits .gte
  | .add _ _ _ => p.jumpSet.admits .add
  | .sub _ _ _ => p.jumpSet.admits .sub
  | .mul _ _ _ => p.jumpSet.admits .mul
  | .div _ _ _ => p.jumpSet.admits .div
  | .pow _ _ _ => p.jumpSet.admits .pow
  | .load _ _ => p.jumpSet.admits .load

/-- Representable in the sense of rule R50: well formed and not ILLEGAL, so that it has an encoding. -/
def Instr.representable (p : Params) (i : Instr) : Bool :=
  i.wf p && i.opcode.isSome

end Sys2Proof
end

