-- ==== Sys2Proof/Decode.lean ====
section
/-! DEFINITION. The decoder (rules R45 to R55, R58) and, after it, the encoder (rule R50). Decoding is total on any bytes. -/

namespace Sys2Proof

/-- `Decode(op)`: the admitted instruction whose opcode byte is the whole byte `op`; `none` is ILLEGAL (rules R51, R58). -/
def decodeOpcode (p : Params) (op : Byte) : Option Opcode :=
  Opcode.all.find? (fun k => p.jumpSet.admits k && (p.opcodeMap.code k == op))

/-- The immediate of LOAD: the byte at the lower address in bits 15:8 (rules R36, R49). -/
def immOfBytes (hi lo : Byte) : Half := hi ++ lo

/-- The operand bytes of `k` taken in the order of rule R45, with the bytes left over; `none` when there are too few. -/
def takeOperands : Opcode → List Byte → Option (Instr × List Byte)
  | .halt, rest => some (.halt, rest)
  | .not, rest => some (.not, rest)
  | .jmp, r :: rest => some (.jmp r, rest)
  | .jmpf, r :: rest => some (.jmpf r, rest)
  | .jmpb, r :: rest => some (.jmpb r, rest)
  | .jmpif, r :: rest => some (.jmpif r, rest)
  | .eq, r1 :: r2 :: rest => some (.eq r1 r2, rest)
  | .gt, r1 :: r2 :: rest => some (.gt r1 r2, rest)
  | .gte, r1 :: r2 :: rest => some (.gte r1 r2, rest)
  | .add, r1 :: r2 :: rd :: rest => some (.add r1 r2 rd, rest)
  | .sub, r1 :: r2 :: rd :: rest => some (.sub r1 r2 rd, rest)
  | .mul, r1 :: r2 :: rd :: rest => some (.mul r1 r2 rd, rest)
  | .div, r1 :: r2 :: rd :: rest => some (.div r1 r2 rd, rest)
  | .pow, r1 :: r2 :: rd :: rest => some (.pow r1 r2 rd, rest)
  | .load, r :: hi :: lo :: rest => some (.load r (immOfBytes hi lo), rest)
  | _, _ => none

/-- Why a byte string is no instruction. An unassigned opcode byte is not among the reasons: it decodes to ILLEGAL (rule R51). -/
inductive DecodeReject where
  /-- There is no opcode byte. -/
  | empty
  /-- Operand bytes are missing: the core raises FetchOverrun (rule R34). -/
  | truncated
deriving DecidableEq, Repr

/-- One instruction read from the front of a byte string, with the bytes after it. ILLEGAL takes the opcode byte only (rule R46). -/
def decode (p : Params) : List Byte → Except DecodeReject (Instr × List Byte)
  | [] => .error .empty
  | op :: rest =>
    match decodeOpcode p op with
    | none => .ok (.illegal op, rest)
    | some k =>
      match takeOperands k rest with
      | none => .error .truncated
      | some d => .ok d

/-- `v_hi` of rule R50: bits 15:8 of the immediate. -/
def immHi (v : Half) : Byte := v.extractLsb' 8 8

/-- `v_lo` of rule R50: bits 7:0 of the immediate. -/
def immLo (v : Half) : Byte := v.extractLsb' 0 8

/-- The operand bytes of an instruction in the order of rule R45. -/
def Instr.operands : Instr → List Byte
  | .halt | .not | .illegal _ => []
  | .jmp r | .jmpf r | .jmpb r | .jmpif r => [r]
  | .eq r1 r2 | .gt r1 r2 | .gte r1 r2 => [r1, r2]
  | .add r1 r2 rd | .sub r1 r2 rd | .mul r1 r2 rd | .div r1 r2 rd | .pow r1 r2 rd => [r1, r2, rd]
  | .load r v => [r, immHi v, immLo v]

/-- `encode` (rule R50): the opcode byte, then the operand bytes; ILLEGAL has no encoding (decision D24). -/
def encode (m : OpcodeMap) (i : Instr) : Option (List Byte) :=
  i.opcode.map (fun k => m.code k :: i.operands)

/-- The bytes of an instruction whose `nbits` bits, numbered from bit 0 of its first byte, are `w`; zeros follow up to the
longest instruction, four bytes (rule R45). -/
def tableBytes (nbits w : Nat) : List Byte :=
  let v := w % 2 ^ nbits
  [BitVec.ofNat 8 v, BitVec.ofNat 8 (v / 2 ^ 8), BitVec.ofNat 8 (v / 2 ^ 16), BitVec.ofNat 8 (v / 2 ^ 24)]

/-- What the decoder, under this spec's parameters, reads from an instruction given by its bits. -/
def decodeTableWord (nbits w : Nat) : Option Instr :=
  match decode .spec (tableBytes nbits w) with
  | .ok (i, _) => some i
  | .error _ => none

end Sys2Proof
end

