-- ==== Sys2Proof/Machine/Fetch.lean ====
section
/-! DEFINITION. The fetch unit: lines 2 to 9 of Step() (rules R22, R33, R34). -/

namespace Sys2Proof.Machine

/-- What the fetch unit finds at `pc` in a running core. -/
inductive Fetched where
  /-- `pc >= L`: the program is exhausted (R22 line 2). -/
  | exhausted
  /-- The operand bytes reach to or beyond `L` (R22 line 8, R34). -/
  | overrun
  /-- A byte that does not exist was asked for; the tests before each read rule it out. -/
  | absent
  /-- A whole instruction, or ILLEGAL (R22 lines 6, 9). -/
  | instr (i : Instr)
deriving DecidableEq, Repr

/-- The operand bytes of `k` from `A + 1` upwards, tested against `L` before any of them is read (rule R34). -/
def fetchOperands (s : State) (k : Opcode) : Fetched :=
  if s.progLen.toNat < s.pc.toNat + 1 + k.operandBytes then .overrun
  else
    match memReadBytes s (s.pc.toNat + 1) k.operandBytes with
    | none => .absent
    | some bs =>
      match takeOperands k bs with
      | none => .absent
      | some (i, _) => .instr i

/-- Opcode fetch, decode, operand fetch (rules R33, R34, R51). -/
def fetch (s : State) : Fetched :=
  if s.progLen.toNat ≤ s.pc.toNat then .exhausted
  else
    match memRead s s.pc.toNat with
    | none => .absent
    | some op =>
      match decodeOpcode s.params op with
      | none => .instr (.illegal op)
      | some k => fetchOperands s k

/-- Bytes of an instruction placed at `pc`, as far as the largest buffer of rule R31 reaches, with `L` raised to cover them. -/
def placeAtPc (s : State) (bs : List Byte) : State :=
  let fit := bs.take (4294967295 - s.pc.toNat)
  let needed := s.pc.toNat + fit.length
  { s with
    runState := .running
    prog := s.prog.writeBytes s.pc.toNat fit
    progLen := if s.progLen.toNat < needed then BitVec.ofNat 32 needed else s.progLen }

end Sys2Proof.Machine
end

