-- ==== Sys2Proof/Machine/Step.lean ====
section
/-! DEFINITION. `Step()` (10_state.md rule R22), and the host's way to put one instruction where the next step fetches. -/

namespace Sys2Proof.Machine

/-- One `Step()`: nothing in Halted (line 1); else exhaustion (line 2), FetchOverrun (line 8), or the instruction at `pc`. -/
def step (s : State) : Host.Outcome State Fault Refusal :=
  match s.runState with
  | .halted => .next s
  | .running =>
    match fetch s with
    | .exhausted => .next (halt s)
    | .overrun => .next (raiseFault s .fetchOverrun 0)
    | .absent => .fault .readOutsideProgram
    | .instr i => exec i s

/-- The state with one instruction, given by its bits, placed at `pc` and ready to run (log 8). -/
def State.withFetchWord (s : State) (nbits w : Nat) : State := placeAtPc s (tableBytes nbits w)

end Sys2Proof.Machine
end

