-- ==== Sys2Proof/Machine/Assembly.lean ====
section
/-! DEFINITION. The assembly text of the instructions (30_encoding.md rules R60 to R64): how an instruction is written, and which
lines and texts are read as instructions. The toolchain's syntax only: no step depends on it. -/

namespace Sys2Proof.Machine

/-- The mnemonics (rule R62). -/
def mnemonic : Opcode → List Char
  | .halt => ['H', 'A', 'L', 'T']
  | .not => ['N', 'O', 'T']
  | .jmp => ['J', 'M', 'P']
  | .jmpf => ['J', 'M', 'P', 'F']
  | .jmpb => ['J', 'M', 'P', 'B']
  | .jmpif => ['J', 'M', 'P', 'I', 'F']
  | .eq => ['E', 'Q']
  | .gt => ['G', 'T']
  | .gte => ['G', 'T', 'E']
  | .add => ['A', 'D', 'D']
  | .sub => ['S', 'U', 'B']
  | .mul => ['M', 'U', 'L']
  | .div => ['D', 'I', 'V']
  | .pow => ['P', 'O', 'W']
  | .load => ['L', 'O', 'A', 'D']

/-- The instructions in the order their mnemonics are tried: longer forms first (rule R63). -/
def longestFirst : List Opcode :=
  [.jmpif, .halt, .jmpf, .jmpb, .load, .not, .jmp, .gte, .add, .sub, .mul, .div, .pow, .eq, .gt]

/-! ### Writing -/

/-- A register operand: one space, `$`, the index in decimal (rules R60, R61). -/
def regText (b : Byte) : List Char := ' ' :: '$' :: Nat.toDigits 10 b.toNat

/-- The immediate: one space, `#`, the signed value in decimal (rules R60, R61). -/
def immText (v : Half) : List Char :=
  ' ' :: '#' :: ((if v.toInt < 0 then ['-'] else []) ++ Nat.toDigits 10 v.toInt.natAbs)

/-- The operands of an instruction, in the order of the encoding (rule R61). -/
def operandText : Instr → List Char
  | .halt | .not | .illegal _ => []
  | .jmp r | .jmpf r | .jmpb r | .jmpif r => regText r
  | .eq r1 r2 | .gt r1 r2 | .gte r1 r2 => regText r1 ++ regText r2
  | .add r1 r2 rd | .sub r1 r2 rd | .mul r1 r2 rd | .div r1 r2 rd | .pow r1 r2 rd =>
    regText r1 ++ regText r2 ++ regText rd
  | .load r v => regText r ++ immText v

/-- The line an instruction is written as; ILLEGAL has none (rule R64). -/
def asmText (i : Instr) : Option (List Char) :=
  i.opcode.map (fun k => mnemonic k ++ operandText i)

/-! ### Reading -/

/-- Why a line is no instruction. -/
inductive AsmReject where
  /-- No mnemonic of rule R62 stands at the start of the line. -/
  | unknownMnemonic
  /-- The operands are not of the mnemonic's shape (rules R60, R62). -/
  | badOperands
  /-- A number does not fit its field: the spec does not say what the assembler does (N9, U21; log 16). -/
  | operandOutOfField
deriving DecidableEq, Repr

/-- What follows a given beginning. -/
def dropText : List Char → List Char → Option (List Char)
  | [], l => some l
  | _ :: _, [] => none
  | c :: cs, d :: l => if c = d then dropText cs l else none

/-- `DIGITS`: a non-empty string of decimal digits, with its value (rule R60). -/
def parseDigits (l : List Char) : Option (Nat × List Char) :=
  let digits := l.takeWhile Char.isDigit
  if digits.isEmpty then none else some (Nat.ofDigitChars 10 digits 0, l.dropWhile Char.isDigit)

/-- `" $" DIGITS`, as an index byte. Numbers 32 to 255 are read as that byte, which the spec leaves open (R61, N9; log 16). -/
def parseReg (l : List Char) : Except AsmReject (Byte × List Char) :=
  match (dropText [' ', '$'] l).bind parseDigits with
  | none => .error .badOperands
  | some (n, rest) => if n < 256 then .ok (BitVec.ofNat 8 n, rest) else .error .operandOutOfField

/-- The optional leading minus sign of an immediate (rule R60). -/
def parseSigned (l : List Char) : Option (Int × List Char) :=
  match dropText ['-'] l with
  | some l' => (parseDigits l').map (fun d => (-(d.1 : Int), d.2))
  | none => (parseDigits l).map (fun d => ((d.1 : Int), d.2))

/-- `" #" "-"? DIGITS`, as a 16-bit pattern. -/
def parseImm (l : List Char) : Except AsmReject (Half × List Char) :=
  match (dropText [' ', '#'] l).bind parseSigned with
  | none => .error .badOperands
  | some (v, rest) =>
    if -32768 ≤ v ∧ v ≤ 32767 then .ok (BitVec.ofInt 16 v, rest) else .error .operandOutOfField

/-- `n` register operands. -/
def parseRegs : Nat → List Char → Except AsmReject (List Byte × List Char)
  | 0, l => .ok ([], l)
  | n + 1, l =>
    match parseReg l with
    | .error e => .error e
    | .ok (b, l1) =>
      match parseRegs n l1 with
      | .error e => .error e
      | .ok (bs, l2) => .ok (b :: bs, l2)

/-- A register and an immediate, as the three operand bytes of format RI. -/
def parseRegImm (l : List Char) : Except AsmReject (List Byte × List Char) :=
  match parseReg l with
  | .error e => .error e
  | .ok (r, l1) =>
    match parseImm l1 with
    | .error e => .error e
    | .ok (v, l2) => .ok ([r, immHi v, immLo v], l2)

/-- The operands of a format, as the operand bytes of the encoding (rules R45, R61). -/
def parseOperands : Format → List Char → Except AsmReject (List Byte × List Char)
  | .z => parseRegs 0
  | .r => parseRegs 1
  | .rr => parseRegs 2
  | .rrr => parseRegs 3
  | .ri => parseRegImm

/-- The longest mnemonic the line begins with, and the rest of the line (rule R63). -/
def parseMnemonic (l : List Char) : Option (Opcode × List Char) :=
  longestFirst.findSome? (fun k => (dropText (mnemonic k) l).map (fun rest => (k, rest)))

/-- One line, without surrounding white space, read as one instruction with nothing left over (rules R60 to R64). -/
def parseLine (l : List Char) : Except AsmReject Instr :=
  match parseMnemonic l with
  | none => .error .unknownMnemonic
  | some (k, ops) =>
    match parseOperands k.format ops with
    | .error e => .error e
    | .ok (bs, []) =>
      match takeOperands k bs with
      | some (i, _) => .ok i
      | none => .error .badOperands
    | .ok (_, _ :: _) => .error .badOperands

/-- The white space that is insignificant at the ends of a line (rule R60; log 16 for which characters). -/
def isBlank (c : Char) : Bool := c == ' ' || c == '\t' || c == '\r'

/-- A line without leading and trailing white space. -/
def trimLine (l : List Char) : List Char :=
  ((l.dropWhile isBlank).reverse.dropWhile isBlank).reverse

/-- The lines of a text, separated by newlines (rule R60). -/
def textLines : List Char → List (List Char)
  | [] => [[]]
  | c :: l =>
    if c = '\n' then [] :: textLines l
    else
      match textLines l with
      | [] => [[c]]
      | first :: others => (c :: first) :: others

/-- The instructions of the lines that are not blank; `none` as soon as one line is no instruction, with nothing kept (rule R64). -/
def assembleLines : List (List Char) → Option (List Instr)
  | [] => some []
  | l :: ls =>
    if (trimLine l).isEmpty then assembleLines ls
    else
      match parseLine (trimLine l) with
      | .error _ => none
      | .ok i => (assembleLines ls).map (fun is => i :: is)

/-- `assemble(text)` (rules R60, R64). -/
def assemble (text : List Char) : Option (List Instr) := assembleLines (textLines text)

/-- The bytes of a sequence of instructions, one after the other without padding (rules R32, R50). -/
def encodeAll (m : OpcodeMap) : List Instr → Option (List Byte)
  | [] => some []
  | i :: is =>
    match encode m i, encodeAll m is with
    | some b, some bs => some (b ++ bs)
    | _, _ => none

end Sys2Proof.Machine
end

