-- ==== Sys2Proof/Machine/HostOps.lean ====
section
/-! DEFINITION. What the host can do to the core beside one step (rules R23, R24, R120, R122): reset, install a program, run.
Reading the state is reading the fields of State; there is no other access. -/

namespace Sys2Proof.Machine

/-- The `reset` input (rule R120): every architectural field at the value of rule R25; `Prog`, `L` and the parameters stay until
the host installs others (rules R21, R31). -/
def applyReset (s : State) : State :=
  { State.reset with prog := s.prog, progLen := s.progLen, params := s.params }

/-- Install a program together with a reset (rules R25, R122): its bytes from offset 0, `L` their number. There is no such launch
for an OPCODE_MAP that rule R52 excludes, or for more than 2^32 - 1 bytes (rule R31). -/
def install (p : Params) (bytes : List Byte) : Option State :=
  if p.wf && decide (bytes.length ≤ 4294967295) then
    some { State.reset with
      prog := Memory.writeBytes [] 0 bytes, progLen := BitVec.ofNat 32 bytes.length, params := p }
  else none

/-- `Run()` (rule R23): steps until Halted. The fuel bounds the steps, since a program need not halt (rule R123; log 15). -/
def runFor : Nat → State → Result
  | 0, s => .next s
  | n + 1, s =>
    match s.runState with
    | .halted => .next s
    | .running =>
      match step s with
      | .next t => runFor n t
      | .fault f => .fault f
      | .refused r => .refused r

end Sys2Proof.Machine
end

