-- ==== Sys2Proof/Safety.lean ====
section
/-! DEFINITION. What the end of a run means (rules R19, R123), and the invariant of the machine that claims use as a premise. -/

namespace Sys2Proof.Machine

/-- Halted normally (rules R19, R123). -/
def State.haltedNormally (s : State) : Prop := s.runState = .halted ∧ s.faultCause = 0

/-- Stopped by a fatal fault (rules R19, R123). -/
def State.faulted (s : State) : Prop := s.runState = .halted ∧ s.faultCause ≠ 0

/-- The launch data are ones a host can install (rules R5, R31): an admitted OPCODE_MAP, and a program buffer in canonical form
with nothing listed at or beyond `L`. -/
abbrev State.LaunchInv (s : State) : Prop :=
  s.params.wf = true ∧ s.prog.wf = true ∧ s.prog.all (fun c => decide (c.1 < s.progLen.toNat)) = true

/-- The fault status agrees with the run state and with rule R101: no fault while Running; a cause is one of the seven codes; a
faulted `pc` is an address below `L`; `fault_info` is an opcode byte for cause 1, an index byte of at least 32 for cause 4, and
0 otherwise; cause 7 needs OVERFLOW_MODE = FAULT. -/
abbrev State.StatusInv (s : State) : Prop :=
  (s.runState = .running → s.faultCause = 0) ∧
  s.faultCause.toNat ≤ 7 ∧
  (s.faultCause ≠ 0 → s.pc.toNat < s.progLen.toNat) ∧
  (s.faultCause = 1 → s.faultInfo.toNat < 256) ∧
  (s.faultCause = 4 → 32 ≤ s.faultInfo.toNat ∧ s.faultInfo.toNat < 256) ∧
  (s.faultCause ≠ 1 → s.faultCause ≠ 4 → s.faultInfo = 0) ∧
  (s.faultCause = 7 → s.params.overflowMode = .fault)

/-- The invariant that every step keeps. -/
abbrev State.Inv (s : State) : Prop := s.LaunchInv ∧ s.StatusInv

end Sys2Proof.Machine
end

