-- ==== Sys2Proof/Certificates/Slice0/Obligations.lean ====
section
/-! DEFINITION. The statements for the provers, from the numbered rules of spec/. Each holds for every value of the launch
parameters of rule R5 unless it names one. -/

namespace Sys2Proof.Claims

open Sys2Proof.Machine

/-- The state after `raise F(info)` during an instruction that began in `s` (rule R103), with the code of rule R101: `pc` is still
the address of the instruction, and nothing else is changed. -/
def faultState (s : State) (code : BitVec 8) (info : BitVec 32) : State :=
  { s with runState := .halted, faultCause := code, faultInfo := info }

/-- The signed 32-bit range (rule R7). -/
def inRange32 (v : Int) : Prop := -2147483648 ≤ v ∧ v ≤ 2147483647

/-- The register-index bytes of an instruction in encoding order (rules R11, R45). -/
def regBytes : Instr → List Byte
  | .halt | .not | .illegal _ => []
  | .jmp r | .jmpf r | .jmpb r | .jmpif r | .load r _ => [r]
  | .eq r1 r2 | .gt r1 r2 | .gte r1 r2 => [r1, r2]
  | .add r1 r2 rd | .sub r1 r2 rd | .mul r1 r2 rd | .div r1 r2 rd | .pow r1 r2 rd => [r1, r2, rd]

/-- The first index byte that names no register (rule R105). -/
def firstBad (bs : List Byte) : Option Byte := bs.find? (fun b => decide (32 ≤ b.toNat))

/-- The destination register of an instruction (rule R10). -/
def destReg : Instr → Option Byte
  | .add _ _ rd | .sub _ _ rd | .mul _ _ rd | .div _ _ rd | .pow _ _ rd => some rd
  | .load r _ => some r
  | .halt | .not | .illegal _ | .jmp _ | .jmpf _ | .jmpb _ | .jmpif _ | .eq _ _ | .gt _ _ | .gte _ _ => none

/-- The value of the register a byte names; 0 for a byte that names none (used only where all the bytes name registers). -/
def regValue (s : State) (b : Byte) : Int := if h : b.toNat < 32 then s.x[b.toNat].toInt else 0

/-- The base of a relative jump (rule R89). -/
def relBaseOf (s : State) : Int := s.pc.toNat + (if s.params.relBase = .next then 2 else 0)

/-- The mathematical target of a taken jump (rules R84 to R87); none for a jump not taken or another instruction. -/
def takenTarget (s : State) : Instr → Option Int
  | .jmp r => some (regValue s r)
  | .jmpf r => some (relBaseOf s + regValue s r)
  | .jmpb r => some (relBaseOf s - regValue s r)
  | .jmpif r => if s.cmp then some (regValue s r) else none
  | .halt | .not | .illegal _ | .eq _ _ | .gt _ _ | .gte _ _ => none
  | .add _ _ _ | .sub _ _ _ | .mul _ _ _ | .div _ _ _ | .pow _ _ _ | .load _ _ => none

/-- The exact mathematical result of an arithmetic instruction that has one (rules R71 to R75). -/
def exactResult (s : State) : Instr → Option Int
  | .add r1 r2 _ => some (regValue s r1 + regValue s r2)
  | .sub r1 r2 _ => some (regValue s r1 - regValue s r2)
  | .mul r1 r2 _ => some (regValue s r1 * regValue s r2)
  | .div r1 r2 _ => if regValue s r2 = 0 then none else some ((regValue s r1).tdiv (regValue s r2))
  | .pow r1 r2 _ => if regValue s r2 < 0 then none else some (regValue s r1 ^ (regValue s r2).toNat)
  | .halt | .not | .illegal _ | .jmp _ | .jmpf _ | .jmpb _ | .jmpif _ | .eq _ _ | .gt _ _ | .gte _ _ | .load _ _ => none

/-- The table of rule R101 with the priority of rule R105: the instruction at `pc` raises this cause with this datum. -/
def faultReason (s : State) (code : BitVec 8) (info : BitVec 32) : Prop :=
  (code = 1 ∧ ∃ op, memRead s s.pc.toNat = some op ∧ decodeOpcode s.params op = none ∧ info = op.setWidth 32) ∨
  (code = 2 ∧ info = 0 ∧ ∃ r1 r2 rd, fetch s = .instr (.div r1 r2 rd) ∧ firstBad [r1, r2, rd] = none ∧
    regValue s r2 = 0) ∨
  (code = 3 ∧ info = 0 ∧ ∃ r1 r2 rd, fetch s = .instr (.pow r1 r2 rd) ∧ firstBad [r1, r2, rd] = none ∧
    regValue s r2 < 0) ∨
  (code = 4 ∧ ∃ i b, fetch s = .instr i ∧ firstBad (regBytes i) = some b ∧ info = b.setWidth 32) ∨
  (code = 5 ∧ info = 0 ∧ ∃ op k, memRead s s.pc.toNat = some op ∧ decodeOpcode s.params op = some k ∧
    s.progLen.toNat < s.pc.toNat + 1 + k.operandBytes) ∨
  (code = 6 ∧ info = 0 ∧ ∃ i t, fetch s = .instr i ∧ firstBad (regBytes i) = none ∧ takenTarget s i = some t ∧
    (t < 0 ∨ 4294967295 < t)) ∨
  (code = 7 ∧ info = 0 ∧ s.params.overflowMode = .fault ∧ ∃ i m, fetch s = .instr i ∧ firstBad (regBytes i) = none ∧
    exactResult s i = some m ∧ ¬ inRange32 m)

/-- The bytes of every instruction: the opcode byte, then the fields in the order of rules R45 and R47, the immediate of LOAD with
bits 15:8 before bits 7:0. -/
def layout (m : OpcodeMap) : Prop :=
  ∀ (r r1 r2 rd : Byte) (v : Half),
    encode m .halt = some [m.halt] ∧ encode m .not = some [m.not] ∧
    encode m (.jmp r) = some [m.jmp, r] ∧ encode m (.jmpf r) = some [m.jmpf, r] ∧
    encode m (.jmpb r) = some [m.jmpb, r] ∧ encode m (.jmpif r) = some [m.jmpif, r] ∧
    encode m (.eq r1 r2) = some [m.eq, r1, r2] ∧ encode m (.gt r1 r2) = some [m.gt, r1, r2] ∧
    encode m (.gte r1 r2) = some [m.gte, r1, r2] ∧ encode m (.add r1 r2 rd) = some [m.add, r1, r2, rd] ∧
    encode m (.sub r1 r2 rd) = some [m.sub, r1, r2, rd] ∧ encode m (.mul r1 r2 rd) = some [m.mul, r1, r2, rd] ∧
    encode m (.div r1 r2 rd) = some [m.div, r1, r2, rd] ∧ encode m (.pow r1 r2 rd) = some [m.pow, r1, r2, rd] ∧
    encode m (.load r v) = some [m.load, r, BitVec.ofNat 8 (v.toNat / 256), BitVec.ofNat 8 (v.toNat % 256)]

/-- The common shape of rules R71 to R73: the assembly line, the encoding, the register check, the result
`arith32 (f a b)` with `pc <- A + 4` and nothing else changed, and the overflow fault of OVERFLOW_MODE = FAULT. -/
def arithRule (name : List Char) (op : Byte) (mk : Byte → Byte → Byte → Instr) (f : Int → Int → Int) : Prop :=
  ∀ (s : State) (r1 r2 rd : Byte),
    asmText (mk r1 r2 rd) = some (name ++ regText r1 ++ regText r2 ++ regText rd) ∧
    encode .spec (mk r1 r2 rd) = some [op, r1, r2, rd] ∧
    (∀ b, firstBad [r1, r2, rd] = some b → exec (mk r1 r2 rd) s = .next (faultState s 4 (b.setWidth 32))) ∧
    ∀ (h1 : r1.toNat < 32) (h2 : r2.toNat < 32) (hd : rd.toNat < 32),
      (s.params.overflowMode = .wrap ∨ inRange32 (f s.x[r1.toNat].toInt s.x[r2.toNat].toInt) →
        exec (mk r1 r2 rd) s = .next { s with
          x := s.x.set rd.toNat (BitVec.ofInt 32 (f s.x[r1.toNat].toInt s.x[r2.toNat].toInt))
          pc := s.pc + 4 }) ∧
      (s.params.overflowMode = .fault → ¬ inRange32 (f s.x[r1.toNat].toInt s.x[r2.toNat].toInt) →
        exec (mk r1 r2 rd) s = .next (faultState s 7 0))

/-- The common shape of rules R91 to R93: the assembly line, the encoding, the register check, `cmp`
overwritten with the test of the two signed values, `pc <- A + 3`, nothing else changed. -/
def compareRule (name : List Char) (op : Byte) (mk : Byte → Byte → Instr) (test : Int → Int → Bool) : Prop :=
  ∀ (s : State) (r1 r2 : Byte),
    asmText (mk r1 r2) = some (name ++ regText r1 ++ regText r2) ∧
    encode .spec (mk r1 r2) = some [op, r1, r2] ∧
    (∀ b, firstBad [r1, r2] = some b → exec (mk r1 r2) s = .next (faultState s 4 (b.setWidth 32))) ∧
    ∀ (h1 : r1.toNat < 32) (h2 : r2.toNat < 32),
      exec (mk r1 r2) s = .next { s with
        cmp := test s.x[r1.toNat].toInt s.x[r2.toNat].toInt
        pc := s.pc + 3 }

/-- The common shape of rules R85 and R86: defined unless JUMP_SET = JUMPIF_ONLY, the assembly line, the encoding, the register
check, the target `f base x[r]` with the base of rule R89, PcRange outside 0 to 2^32 - 1, `pc` and nothing else changed otherwise. -/
def relJumpRule (name : List Char) (op : Byte) (k : Opcode) (mk : Byte → Instr) (f : Int → Int → Int) : Prop :=
  (∀ js, decodeOpcode { Params.spec with jumpSet := js } op = if js = .jumpifOnly then none else some k) ∧
  ∀ (s : State) (r : Byte),
    asmText (mk r) = some (name ++ regText r) ∧
    encode .spec (mk r) = some [op, r] ∧
    (32 ≤ r.toNat → exec (mk r) s = .next (faultState s 4 (r.setWidth 32))) ∧
    ∀ (h : r.toNat < 32) (t : Int), t = f (relBaseOf s) s.x[r.toNat].toInt →
      (t < 0 ∨ 4294967295 < t → exec (mk r) s = .next (faultState s 6 0)) ∧
      (0 ≤ t → t ≤ 4294967295 → exec (mk r) s = .next { s with pc := BitVec.ofNat 32 t.toNat })

/-- A line of assembly text in three parts (rule R60): white space, what the line says, white space. -/
structure SourceLine where
  before : List Char
  content : List Char
  after : List Char
deriving DecidableEq, Repr

/-- White space within a line; the choice of the characters is log 16's. -/
def whiteSpace : List Char := [' ', '\t', '\r']

/-- The outer parts are white space, and the middle part has none at its ends and no newline. -/
abbrev SourceLine.ok (l : SourceLine) : Prop :=
  (∀ c ∈ l.before ++ l.after, c ∈ whiteSpace) ∧
  (∀ c ∈ l.content.head?.toList ++ l.content.getLast?.toList, c ∉ whiteSpace) ∧
  '\n' ∉ l.content

/-- The text of some lines: a newline between each two of them (rule R60). -/
def textOf (ls : List SourceLine) : List Char :=
  List.intercalate ['\n'] (ls.map (fun l => l.before ++ l.content ++ l.after))

end Sys2Proof.Claims

open Sys2Proof Sys2Proof.Machine Sys2Proof.Claims

/-! ### Reset, launch, invariant -/

/-- R120: reset puts every piece of architectural state at the value of the table, whatever the state before; the model's reset
state has the same values. -/
def Obligations.ResetPutsEveryRegister : Prop :=
  ∀ s t : State, t = applyReset s ∨ t = State.reset →
    (∀ i : Fin 32, t.x[i] = 0) ∧ t.pc = 0 ∧ t.runState = .running ∧ t.cmp = false ∧ t.remainder = 0 ∧
    t.faultCause = 0 ∧ t.faultInfo = 0

/-- Reset keeps the program, its length and the parameters (R31; log 17: the model's reading), and resetting twice is resetting once. -/
def Obligations.ResetKeepsTheLaunch : Prop :=
  ∀ s : State, (∀ a, memRead (applyReset s) a = memRead s a) ∧ (applyReset s).prog = s.prog ∧
    (applyReset s).progLen = s.progLen ∧ (applyReset s).params = s.params ∧ applyReset (applyReset s) = applyReset s

/-- R25 (last sentence) and S10: with an empty program the first step after reset halts, everything else at its reset value. -/
def Obligations.EmptyProgramHaltsAtOnce : Prop :=
  ∀ s : State, s.progLen = 0 → step (applyReset s) = .next { applyReset s with runState := .halted }

/-- R31, R122: an installed program is there byte for byte, with `L` its length, and the core is as reset leaves it. -/
def Obligations.InstallPlacesTheProgram : Prop :=
  ∀ (p : Params) (bytes : List Byte), p.wf = true → bytes.length ≤ 4294967295 →
    ∃ s, install p bytes = some s ∧ (∀ a, memRead s a = bytes[a]?) ∧ s.progLen.toNat = bytes.length ∧ s.params = p ∧
      s = { State.reset with prog := s.prog, progLen := s.progLen, params := s.params }

/-- The invariant holds at the model's reset state (whose empty program and parameters are log 3 and log 4). -/
def Obligations.ResetMeetsInvariant : Prop := State.reset.Inv

/-- Every launch the host can make starts in the invariant. -/
def Obligations.InstalledMeetsInvariant : Prop :=
  ∀ (p : Params) (bytes : List Byte) (s : State), install p bytes = some s → s.Inv

/-- Every step keeps the invariant: launch data in order, fault status consistent with the run state and rule R101. -/
def Obligations.StepKeepsInvariant : Prop :=
  ∀ s t : State, s.Inv → step s = .next t → t.Inv

/-! ### Encoding and decoding -/

/-- R47: every field of every format, byte by byte, under any opcode map. -/
def Obligations.EncodingLayout : Prop := ∀ m : OpcodeMap, layout m

/-- Some words of 95_test_vectors.md section 2.1, bit by bit, decode to the instructions they stand for. -/
def Obligations.WordsDecodeAsWritten : Prop :=
  decode .spec [0x00] = .ok (.halt, []) ∧
  decode .spec [0x02, 0x1F] = .ok (.jmp 31, []) ∧
  decode .spec [0x08, 0x1E, 0x1F] = .ok (.gte 30 31, []) ∧
  decode .spec [0x0B, 0x01, 0x02, 0x01] = .ok (.mul 1 2 1, []) ∧
  decode .spec [0x0E, 0x00, 0x12, 0x34] = .ok (.load 0 0x1234, []) ∧
  decode .spec [0x29, 0x00, 0x01, 0x02] = .ok (.illegal 0x29, [0x00, 0x01, 0x02])

/-- R52, R53: the opcode map over all 256 byte values; every byte from 0x0F up is ILLEGAL. -/
def Obligations.OpcodeMapTable : Prop :=
  ∀ op : Byte, decodeOpcode .spec op =
    [Opcode.halt, .not, .jmp, .jmpf, .jmpb, .jmpif, .eq, .gt, .gte, .add, .sub, .mul, .div, .pow, .load][op.toNat]?

/-- R51: for every admitted opcode map and jump set, a byte decodes to the instruction that has exactly that byte, and to ILLEGAL
when no admitted instruction has it. -/
def Obligations.DecodeOpcodeRule : Prop :=
  ∀ (p : Params) (op : Byte), p.wf = true →
    (∀ k, decodeOpcode p op = some k ↔ p.jumpSet.admits k = true ∧ p.opcodeMap.code k = op) ∧
    (decodeOpcode p op = none ↔ ∀ k, p.jumpSet.admits k = true → p.opcodeMap.code k ≠ op)

/-- R58: what each JUMP_SET removes, that it removes nothing else, and that executing an instruction does not depend on it. -/
def Obligations.JumpSetRule : Prop :=
  ∀ (m : OpcodeMap) (b : RelBase) (v : OverflowMode), m.wf = true →
    (∀ k, decodeOpcode ⟨m, .full, b, v⟩ (m.code k) = some k) ∧
    decodeOpcode ⟨m, .relativeOnly, b, v⟩ m.jmpif = none ∧
    (∀ k, k ≠ .jmpif → decodeOpcode ⟨m, .relativeOnly, b, v⟩ (m.code k) = some k) ∧
    decodeOpcode ⟨m, .jumpifOnly, b, v⟩ m.jmpf = none ∧ decodeOpcode ⟨m, .jumpifOnly, b, v⟩ m.jmpb = none ∧
    (∀ k, k ≠ .jmpf → k ≠ .jmpb → decodeOpcode ⟨m, .jumpifOnly, b, v⟩ (m.code k) = some k) ∧
    (∀ (i : Instr) (s : State) (js : JumpSet), ∃ t : State,
      exec i { s with params := ⟨m, .full, b, v⟩ } = .next { t with params := ⟨m, .full, b, v⟩ } ∧
      exec i { s with params := ⟨m, js, b, v⟩ } = .next { t with params := ⟨m, js, b, v⟩ })

/-- R50: every representable instruction has an encoding, which decodes to it whatever follows; ILLEGAL has none; and (the spec's
own inference) a string of the right length with a defined opcode is the encoding of what it decodes to. -/
def Obligations.EncodeIsInverseOfDecode : Prop :=
  ∀ p : Params, p.wf = true →
    (∀ i : Instr, i.representable p = true →
      ∃ bs, encode p.opcodeMap i = some bs ∧ bs.length ≤ 4 ∧ ∀ rest, decode p (bs ++ rest) = .ok (i, rest)) ∧
    (∀ op, encode p.opcodeMap (.illegal op) = none) ∧
    (∀ (op : Byte) (k : Opcode) (ops : List Byte), decodeOpcode p op = some k → ops.length = k.operandBytes →
      ∃ i, decode p (op :: ops) = .ok (i, []) ∧ encode p.opcodeMap i = some (op :: ops))

/-- R46, R54: decoding takes the opcode byte and exactly the operand bytes its instruction has, ILLEGAL the opcode byte alone; it
fails only when one of those bytes is missing; and what it gives is well formed. -/
def Obligations.DecodeTakesExactlyOneInstruction : Prop :=
  ∀ (p : Params) (op : Byte) (rest : List Byte),
    (decodeOpcode p op = none → decode p (op :: rest) = .ok (.illegal op, rest)) ∧
    ∀ k, decodeOpcode p op = some k →
      (rest.length < k.operandBytes → decode p (op :: rest) = .error .truncated) ∧
      (k.operandBytes ≤ rest.length →
        ∃ i, decode p (op :: rest) = .ok (i, rest.drop k.operandBytes) ∧ i.opcode = some k ∧ i.wf p = true)

/-! ### The step -/

/-- R18, R22 line 1, R108: Halted is absorbing; steps and runs change nothing. -/
def Obligations.HaltedIsAbsorbing : Prop :=
  ∀ (s : State) (n : Nat), s.runState = .halted → step s = .next s ∧ runFor n s = .next s

/-- R22 line 2: a running core with `pc >= L` halts, with nothing else changed. -/
def Obligations.ExhaustionHalts : Prop :=
  ∀ s : State, s.runState = .running → s.progLen.toNat ≤ s.pc.toNat → step s = .next { s with runState := .halted }

/-- R34: a truncated instruction raises FetchOverrun and nothing else happens; a whole one is run with the `n` bytes from `A + 1`
upwards as its operand bytes. -/
def Obligations.OperandFetchRule : Prop :=
  ∀ (s : State) (op : Byte) (k : Opcode), s.runState = .running → memRead s s.pc.toNat = some op →
    decodeOpcode s.params op = some k →
    (s.progLen.toNat < s.pc.toNat + 1 + k.operandBytes → step s = .next (faultState s 5 0)) ∧
    (s.pc.toNat + 1 + k.operandBytes ≤ s.progLen.toNat →
      ∃ bs i, memReadBytes s (s.pc.toNat + 1) k.operandBytes = some bs ∧ takeOperands k bs = some (i, []) ∧
        step s = exec i s)

/-- R22 lines 3 to 13: when the bytes at `pc` decode to an instruction, the step is that instruction's execution. -/
def Obligations.StepRunsTheDecodedInstruction : Prop :=
  ∀ (s : State) (n : Nat) (bs rest : List Byte) (i : Instr), s.runState = .running →
    memReadBytes s s.pc.toNat n = some bs → decode s.params bs = .ok (i, rest) → step s = exec i s

/-- R22, R26: every state has a next state; the machine never stops without one. -/
def Obligations.StepIsTotal : Prop := ∀ s : State, ∃ t, step s = .next t

/-- R35: no instruction and no step changes a byte of the program, its length or the parameters. -/
def Obligations.MemoryIsNeverWritten : Prop :=
  (∀ (i : Instr) (s t : State), exec i s = .next t →
    (∀ a, memRead t a = memRead s a) ∧ t.prog = s.prog ∧ t.progLen = s.progLen ∧ t.params = s.params) ∧
  (∀ s t : State, step s = .next t →
    (∀ a, memRead t a = memRead s a) ∧ t.prog = s.prog ∧ t.progLen = s.progLen ∧ t.params = s.params)

/-- R18: the core starts Running, becomes Halted in exactly three ways, and stays Halted. -/
def Obligations.HaltsInExactlyThreeWays : Prop :=
  State.reset.runState = .running ∧ State.reset.pc = 0 ∧
  (∀ s t : State, s.runState = .running → s.faultCause = 0 → step s = .next t →
    (t.runState = .halted ↔ s.progLen.toNat ≤ s.pc.toNat ∨ fetch s = .instr .halt ∨ t.faultCause ≠ 0)) ∧
  (∀ s : State, s.runState = .halted → step s = .next s)

/-- R14, R15: after a step without a fault, `pc` is past the bytes of the instruction and at most `L`, or the exact target of a
taken jump. It never wraps. -/
def Obligations.ProgramCounterNeverWraps : Prop :=
  ∀ (s t : State) (i : Instr), s.runState = .running → s.faultCause = 0 → fetch s = .instr i → step s = .next t →
    t.faultCause = 0 →
    ∃ k, i.opcode = some k ∧
      (takenTarget s i = none →
        t.pc.toNat = s.pc.toNat + (1 + k.operandBytes) ∧ t.pc.toNat ≤ s.progLen.toNat) ∧
      (∀ target, takenTarget s i = some target → (t.pc.toNat : Int) = target)

/-- R103: a fault sets the run state, the cause and the datum of the table of R101, and nothing else: `pc` is the faulting
instruction's own address. -/
def Obligations.FaultsArePrecise : Prop :=
  ∀ s t : State, s.runState = .running → s.faultCause = 0 → step s = .next t → t.faultCause ≠ 0 →
    t = faultState s t.faultCause t.faultInfo ∧ faultReason s t.faultCause t.faultInfo

/-- R101, R105: a step raises a cause with a datum exactly when the table says so, in the order of priority. -/
def Obligations.FaultsExactlyAsTabled : Prop :=
  ∀ (s : State) (code : BitVec 8) (info : BitVec 32), s.runState = .running → s.faultCause = 0 →
    ((∃ t, step s = .next t ∧ t.faultCause = code ∧ t.faultInfo = info ∧ code ≠ 0) ↔ faultReason s code info)

/-- R11: the first register-index byte of at least 32 raises RegisterIndexRange with that byte, whatever the instruction would
have done; nothing is written. -/
def Obligations.RegisterIndexIsChecked : Prop :=
  ∀ (i : Instr) (s : State) (b : Byte), firstBad (regBytes i) = some b →
    exec i s = .next (faultState s 4 (b.setWidth 32))

/-- R23: a run does nothing in Halted; while Running it makes one step and runs on from there; so running on from where a run
stopped is one longer run. The bound on the number of steps, and that a run whose bound is used up answers the state it has
reached, are the model's choice (log 15). -/
def Obligations.RunIsRepeatedStep : Prop :=
  (∀ s : State, runFor 0 s = .next s) ∧
  (∀ (n : Nat) (s : State), s.runState = .halted → runFor n s = .next s) ∧
  (∀ (n : Nat) (s t : State), s.runState = .running → step s = .next t → runFor (n + 1) s = runFor n t) ∧
  (∀ (m n : Nat) (s t : State), runFor m s = .next t → runFor (m + n) s = runFor n t)

/-- A run with any bound on its steps, from a state that meets the invariant, answers a state that meets it: no launch gets stuck.
That a run whose bound is used up answers the state it has reached is the model's choice (log 15). -/
def Obligations.RunsNeverGetStuck : Prop :=
  ∀ (n : Nat) (s : State), s.Inv → ∃ t, runFor n s = .next t ∧ t.Inv

/-! ### Arithmetic and LOAD -/

/-- R71. -/
def Obligations.AddRule : Prop := arithRule ['A', 'D', 'D'] 0x09 .add (fun a b => a + b)

/-- R72. -/
def Obligations.SubRule : Prop := arithRule ['S', 'U', 'B'] 0x0A .sub (fun a b => a - b)

/-- R73. -/
def Obligations.MulRule : Prop := arithRule ['M', 'U', 'L'] 0x0B .mul (fun a b => a * b)

/-- R74. -/
def Obligations.DivRule : Prop :=
  ∀ (s : State) (r1 r2 rd : Byte),
    asmText (.div r1 r2 rd) = some (['D', 'I', 'V'] ++ regText r1 ++ regText r2 ++ regText rd) ∧
    encode .spec (.div r1 r2 rd) = some [0x0C, r1, r2, rd] ∧
    (∀ b, firstBad [r1, r2, rd] = some b → exec (.div r1 r2 rd) s = .next (faultState s 4 (b.setWidth 32))) ∧
    ∀ (h1 : r1.toNat < 32) (h2 : r2.toNat < 32) (hd : rd.toNat < 32) (a b q : Int),
      a = s.x[r1.toNat].toInt → b = s.x[r2.toNat].toInt → q = a.tdiv b →
      (b = 0 → exec (.div r1 r2 rd) s = .next (faultState s 2 0)) ∧
      (b ≠ 0 → s.params.overflowMode = .wrap ∨ inRange32 q →
        exec (.div r1 r2 rd) s = .next { s with
          x := s.x.set rd.toNat (BitVec.ofInt 32 q)
          remainder := BitVec.ofInt 32 (a - b * q)
          pc := s.pc + 4 }) ∧
      (b ≠ 0 → s.params.overflowMode = .fault → ¬ inRange32 q → exec (.div r1 r2 rd) s = .next (faultState s 7 0))

/-- R74: the remainder is exact, smaller than the divisor, and 0 or of the dividend's sign. -/
def Obligations.DivisionIdentity : Prop :=
  ∀ (s : State) (r1 r2 rd : Byte) (h1 : r1.toNat < 32) (h2 : r2.toNat < 32), rd.toNat < 32 →
    s.params.overflowMode = .wrap → s.x[r2.toNat].toInt ≠ 0 →
    ∃ t, exec (.div r1 r2 rd) s = .next t ∧
      s.x[r1.toNat].toInt = s.x[r2.toNat].toInt * s.x[r1.toNat].toInt.tdiv s.x[r2.toNat].toInt + t.remainder.toInt ∧
      t.remainder.toInt.natAbs < s.x[r2.toNat].toInt.natAbs ∧
      (t.remainder.toInt = 0 ∨ t.remainder.toInt.sign = s.x[r1.toNat].toInt.sign)

/-- R75: the exact integer power, narrowed once. -/
def Obligations.PowRule : Prop :=
  ∀ (s : State) (r1 r2 rd : Byte),
    asmText (.pow r1 r2 rd) = some (['P', 'O', 'W'] ++ regText r1 ++ regText r2 ++ regText rd) ∧
    encode .spec (.pow r1 r2 rd) = some [0x0D, r1, r2, rd] ∧
    (∀ b, firstBad [r1, r2, rd] = some b → exec (.pow r1 r2 rd) s = .next (faultState s 4 (b.setWidth 32))) ∧
    ∀ (h1 : r1.toNat < 32) (h2 : r2.toNat < 32) (hd : rd.toNat < 32) (a e : Int),
      a = s.x[r1.toNat].toInt → e = s.x[r2.toNat].toInt →
      (e < 0 → exec (.pow r1 r2 rd) s = .next (faultState s 3 0)) ∧
      (0 ≤ e → s.params.overflowMode = .wrap ∨ inRange32 (a ^ e.toNat) →
        exec (.pow r1 r2 rd) s = .next { s with
          x := s.x.set rd.toNat (BitVec.ofInt 32 (a ^ e.toNat))
          pc := s.pc + 4 }) ∧
      (0 ≤ e → s.params.overflowMode = .fault → ¬ inRange32 (a ^ e.toNat) →
        exec (.pow r1 r2 rd) s = .next (faultState s 7 0))

/-- R75, R76: under WRAP the result is that of `e` successive wrapping multiplications starting from 1. -/
def Obligations.PowIsRepeatedMultiplication : Prop :=
  ∀ (s : State) (r1 r2 rd : Byte) (h1 : r1.toNat < 32) (h2 : r2.toNat < 32) (hd : rd.toNat < 32),
    s.params.overflowMode = .wrap → 0 ≤ s.x[r2.toNat].toInt →
    exec (.pow r1 r2 rd) s = .next { s with
      x := s.x.set rd.toNat (Nat.iterate (fun w : Word => w * s.x[r1.toNat]) s.x[r2.toNat].toInt.toNat 1)
      pc := s.pc + 4 }

/-- R7, R76: what narrowing a result does, in each mode. -/
def Obligations.NarrowingOfResults : Prop :=
  (∀ (mode : OverflowMode) (v : Int), inRange32 v → ∃ w, arith32 mode v = some w ∧ w.toInt = v) ∧
  (∀ v : Int, ¬ inRange32 v → arith32 .fault v = none) ∧
  (∀ v : Int, ∃ w, arith32 .wrap v = some w ∧ (4294967296 : Int) ∣ w.toInt - v)

/-- R80. -/
def Obligations.LoadRule : Prop :=
  ∀ (s : State) (r : Byte) (v : Half),
    asmText (.load r v) = some (['L', 'O', 'A', 'D'] ++ regText r ++ immText v) ∧
    encode .spec (.load r v) = some [0x0E, r, BitVec.ofNat 8 (v.toNat / 256), BitVec.ofNat 8 (v.toNat % 256)] ∧
    (32 ≤ r.toNat → exec (.load r v) s = .next (faultState s 4 (r.setWidth 32))) ∧
    ∀ h : r.toNat < 32,
      exec (.load r v) s = .next { s with
        x := s.x.set r.toNat (BitVec.ofInt 32 (if v.toNat < 32768 then v.toNat else v.toNat - 65536))
        pc := s.pc + 4 }

/-- R36, R49, R80: a step on a LOAD in the program takes the immediate big-endian from `A + 2` and sign-extends it. -/
def Obligations.LoadTakesBigEndianImmediate : Prop :=
  ∀ (s : State) (op r : Byte) (imm : Half) (_ : r.toNat < 32), s.runState = .running →
    memRead s s.pc.toNat = some op → decodeOpcode s.params op = some .load →
    memRead s (s.pc.toNat + 1) = some r → memRead2 s (s.pc.toNat + 2) = some imm →
    step s = .next { s with x := s.x.set r.toNat (BitVec.ofInt 32 imm.toInt), pc := s.pc + 4 }

/-! ### Jumps -/

/-- R84. -/
def Obligations.JmpRule : Prop :=
  ∀ (s : State) (r : Byte),
    asmText (.jmp r) = some (['J', 'M', 'P'] ++ regText r) ∧
    encode .spec (.jmp r) = some [0x02, r] ∧
    (32 ≤ r.toNat → exec (.jmp r) s = .next (faultState s 4 (r.setWidth 32))) ∧
    ∀ h : r.toNat < 32,
      (s.x[r.toNat].toInt < 0 → exec (.jmp r) s = .next (faultState s 6 0)) ∧
      (0 ≤ s.x[r.toNat].toInt → exec (.jmp r) s = .next { s with pc := s.x[r.toNat] })

/-- R85, R89. -/
def Obligations.JmpfRule : Prop := relJumpRule ['J', 'M', 'P', 'F'] 0x03 .jmpf .jmpf (fun base v => base + v)

/-- R86, R89. -/
def Obligations.JmpbRule : Prop := relJumpRule ['J', 'M', 'P', 'B'] 0x04 .jmpb .jmpb (fun base v => base - v)

/-- R87. -/
def Obligations.JmpifRule : Prop :=
  (∀ js, decodeOpcode { Params.spec with jumpSet := js } 0x05 = if js = .relativeOnly then none else some .jmpif) ∧
  ∀ (s : State) (r : Byte),
    asmText (.jmpif r) = some (['J', 'M', 'P', 'I', 'F'] ++ regText r) ∧
    encode .spec (.jmpif r) = some [0x05, r] ∧
    (32 ≤ r.toNat → exec (.jmpif r) s = .next (faultState s 4 (r.setWidth 32))) ∧
    ∀ h : r.toNat < 32,
      (s.cmp = true → s.x[r.toNat].toInt < 0 → exec (.jmpif r) s = .next (faultState s 6 0)) ∧
      (s.cmp = true → 0 ≤ s.x[r.toNat].toInt → exec (.jmpif r) s = .next { s with pc := s.x[r.toNat] }) ∧
      (s.cmp = false → exec (.jmpif r) s = .next { s with pc := s.pc + 2 })

/-- R89: under NEXT a displacement of 0 falls through to the next instruction; under SELF it jumps to itself. -/
def Obligations.RelativeBase : Prop :=
  ∀ (s : State) (r : Byte) (h : r.toNat < 32), s.x[r.toNat] = 0 → s.pc.toNat + 2 ≤ 4294967295 →
    (s.params.relBase = .next → exec (.jmpf r) s = .next { s with pc := s.pc + 2 } ∧
      exec (.jmpb r) s = .next { s with pc := s.pc + 2 }) ∧
    (s.params.relBase = .self → exec (.jmpf r) s = .next s ∧ exec (.jmpb r) s = .next s)

/-! ### Comparison, HALT, ILLEGAL -/

/-- R91. -/
def Obligations.EqRule : Prop := compareRule ['E', 'Q'] 0x06 .eq (fun a b => decide (a = b))

/-- R92. -/
def Obligations.GtRule : Prop := compareRule ['G', 'T'] 0x07 .gt (fun a b => decide (a > b))

/-- R93. -/
def Obligations.GteRule : Prop := compareRule ['G', 'T', 'E'] 0x08 .gte (fun a b => decide (a ≥ b))

/-- R94. -/
def Obligations.NotRule : Prop :=
  asmText .not = some ['N', 'O', 'T'] ∧ encode .spec .not = some [0x01] ∧
  ∀ s : State, exec .not s = .next { s with cmp := !s.cmp, pc := s.pc + 1 }

/-- R95 (the spec's own inference): the missing relations from two instructions, or from swapped operands. -/
def Obligations.MissingRelations : Prop :=
  ∀ (s : State) (ra rb : Byte) (ha : ra.toNat < 32) (hb : rb.toNat < 32),
    (∃ t u, exec (.eq ra rb) s = .next t ∧ exec .not t = .next u ∧ u.cmp = decide (s.x[ra.toNat].toInt ≠ s.x[rb.toNat].toInt)) ∧
    (∃ t, exec (.gt rb ra) s = .next t ∧ t.cmp = decide (s.x[ra.toNat].toInt < s.x[rb.toNat].toInt)) ∧
    (∃ t u, exec (.gte ra rb) s = .next t ∧ exec .not t = .next u ∧ u.cmp = decide (s.x[ra.toNat].toInt < s.x[rb.toNat].toInt)) ∧
    (∃ t, exec (.gte rb ra) s = .next t ∧ t.cmp = decide (s.x[ra.toNat].toInt ≤ s.x[rb.toNat].toInt)) ∧
    (∃ t u, exec (.gt ra rb) s = .next t ∧ exec .not t = .next u ∧ u.cmp = decide (s.x[ra.toNat].toInt ≤ s.x[rb.toNat].toInt))

/-- R96: HALT halts normally with `pc` past its byte, and after it a step does nothing; exhaustion halts the same way with `pc`
unchanged. -/
def Obligations.HaltRule : Prop :=
  asmText .halt = some ['H', 'A', 'L', 'T'] ∧ encode .spec .halt = some [0x00] ∧
  ∀ s : State, exec .halt s = .next { s with runState := .halted, pc := s.pc + 1 } ∧
    step { s with runState := .halted, pc := s.pc + 1 } = .next { s with runState := .halted, pc := s.pc + 1 } ∧
    (s.runState = .running → s.progLen.toNat ≤ s.pc.toNat → step s = .next { s with runState := .halted })

/-- R97: 0x0F to 0xFF are undefined under this spec's parameters; an undefined opcode byte raises
IllegalOpcode with the byte, when executed and when a step reaches it. -/
def Obligations.IllegalRule : Prop :=
  (∀ op : Byte, decodeOpcode .spec op = none ↔ 15 ≤ op.toNat) ∧
  ∀ (s : State) (op : Byte),
    exec (.illegal op) s = .next (faultState s 1 (op.setWidth 32)) ∧
    (s.runState = .running → memRead s s.pc.toNat = some op → decodeOpcode s.params op = none →
      step s = .next (faultState s 1 (op.setWidth 32)))

/-! ### Frames over all instructions -/

/-- R10: an instruction changes no general register but its destination. -/
def Obligations.OnlyTheDestinationRegisterChanges : Prop :=
  ∀ (i : Instr) (s t : State) (j : Fin 32), exec i s = .next t → (∀ rd, destReg i = some rd → rd.toNat ≠ j.val) →
    t.x[j] = s.x[j]

/-- R17: `remainder` is written by DIV alone, and no step reads it: changing it changes nothing else that a step does. -/
def Obligations.RemainderIsWrittenByDivAndNeverRead : Prop :=
  (∀ (i : Instr) (s t : State), exec i s = .next t → i.opcode ≠ some .div → t.remainder = s.remainder) ∧
  (∀ (s t : State) (m : Word), step s = .next t →
    ∃ t', step { s with remainder := m } = .next t' ∧ { t' with remainder := t.remainder } = t)

/-- R16: `cmp` is written by EQ, GT, GTE and NOT alone, and read by NOT and JMPIF alone. -/
def Obligations.FlagIsWrittenAndReadByItsInstructions : Prop :=
  (∀ (i : Instr) (s t : State), exec i s = .next t →
    i.opcode ≠ some .eq → i.opcode ≠ some .gt → i.opcode ≠ some .gte → i.opcode ≠ some .not → t.cmp = s.cmp) ∧
  (∀ (i : Instr) (s t : State) (b : Bool), exec i s = .next t → i.opcode ≠ some .not → i.opcode ≠ some .jmpif →
    ∃ t', exec i { s with cmp := b } = .next t' ∧ { t' with cmp := t.cmp } = t)

/-- R19: no instruction reads the fault status: changing it changes nothing else that a step does. -/
def Obligations.FaultStatusIsNeverRead : Prop :=
  ∀ (s t : State) (c : BitVec 8) (f : BitVec 32), step s = .next t →
    ∃ t', step { s with faultCause := c, faultInfo := f } = .next t' ∧
      { t' with faultCause := t.faultCause, faultInfo := t.faultInfo } = t

/-! ### Assembly text -/

/-- R61, R62: the source's two lines, written and read. -/
def Obligations.SourceLinesAssemble : Prop :=
  asmText (.add 0 1 2) = some ['A', 'D', 'D', ' ', '$', '0', ' ', '$', '1', ' ', '$', '2'] ∧
  parseLine ['A', 'D', 'D', ' ', '$', '0', ' ', '$', '1', ' ', '$', '2'] = .ok (.add 0 1 2) ∧
  asmText (.load 2 0xFFFF) = some ['L', 'O', 'A', 'D', ' ', '$', '2', ' ', '#', '-', '1'] ∧
  parseLine ['L', 'O', 'A', 'D', ' ', '$', '2', ' ', '#', '-', '1'] = .ok (.load 2 0xFFFF)

/-- R60 to R62 for register numbers 0 to 31: every instruction but ILLEGAL has a line, and that line is read as the instruction.
For register numbers 32 to 255 the spec does not say what the assembler does (R61, N9, U21): reading them as that index byte is the
model's choice (log 16). -/
def Obligations.LinesAreReadBack : Prop :=
  ∀ i : Instr, i.opcode.isSome = true → ∃ l, asmText i = some l ∧ parseLine l = .ok i

/-- R63: the mnemonic taken is the longest that the line begins with. -/
def Obligations.LongestMnemonicWins : Prop :=
  ∀ (l : List Char) (k : Opcode) (rest : List Char), parseMnemonic l = some (k, rest) →
    l = mnemonic k ++ rest ∧ ∀ k', mnemonic k' <+: l → (mnemonic k').length ≤ (mnemonic k).length

/-- R60, R64: every text is lines joined by newlines; when each line that is not blank, without the white space around it, is read
as an instruction, the text gives exactly those instructions in their order; when one of them is not, the text gives nothing.
Which characters are white space is the model's choice (log 16). -/
def Obligations.AssemblyIsAllOrNothing : Prop :=
  (∀ text : List Char, ∃ ls : List SourceLine, ls ≠ [] ∧ (∀ l ∈ ls, l.ok) ∧ text = textOf ls) ∧
  ∀ ls : List SourceLine, ls ≠ [] → (∀ l ∈ ls, l.ok) →
    (∀ is : List Instr, (ls.filter (fun l => !l.content.isEmpty)).map (fun l => parseLine l.content) = is.map .ok →
      assemble (textOf ls) = some is) ∧
    (∀ l ∈ ls, l.content ≠ [] → (∀ i, parseLine l.content ≠ .ok i) → assemble (textOf ls) = none)
end

