-- ==== Sys2Proof/Laws/Alu.lean ====
section
/-! SUPPORT. What the ALU computes: `arith32` in each mode, and that `pow32` is `arith32` of the exact integer power. -/

namespace Sys2Proof.Laws

open Sys2Proof.Machine

theorem fits32_iff {v : Int} : fits32 v = true ↔ -2147483648 ≤ v ∧ v ≤ 2147483647 := by
  simp [fits32]

theorem fits32_toInt (w : Word) : fits32 w.toInt = true := by
  rw [fits32_iff]
  have h1 := BitVec.le_toInt w
  have h2 := BitVec.toInt_lt (x := w)
  omega

theorem toInt_ofInt_of_fits32 {v : Int} (h : fits32 v = true) : (BitVec.ofInt 32 v).toInt = v := by
  rw [fits32_iff] at h
  rw [BitVec.toInt_ofInt]
  exact Int.bmod_eq_of_le (by omega) (by omega)

@[simp] theorem arith32_wrap (v : Int) : arith32 .wrap v = some (BitVec.ofInt 32 v) := by
  simp [arith32]

theorem arith32_of_fits32 {v : Int} (mode : OverflowMode) (h : fits32 v = true) :
    arith32 mode v = some (BitVec.ofInt 32 v) := by
  simp [arith32, h]

theorem arith32_fault_of_not_fits32 {v : Int} (h : fits32 v = false) : arith32 .fault v = none := by
  simp [arith32, h]

/-- `arith32` gives no value exactly for an out-of-range result under FAULT, and otherwise the low 32 bits of the result. -/
theorem arith32_cases (mode : OverflowMode) (v : Int) :
    (arith32 mode v = none ∧ mode = .fault ∧ fits32 v = false) ∨
    (arith32 mode v = some (BitVec.ofInt 32 v) ∧ (mode = .wrap ∨ fits32 v = true)) := by
  cases hf : fits32 v <;> cases mode <;> simp [arith32, hf]

/-! ### POW -/

theorem pow_split (a : Int) (e : Nat) :
    a ^ e = if e % 2 = 1 then a ^ (e / 2) * a ^ (e / 2) * a else a ^ (e / 2) * a ^ (e / 2) := by
  split
  · rename_i h
    rw [← pow_add, ← pow_succ]
    congr 1
    omega
  · rename_i h
    rw [← pow_add]
    congr 1
    omega

theorem ofInt_toInt_mul (v w : Int) :
    BitVec.ofInt 32 ((BitVec.ofInt 32 v).toInt * (BitVec.ofInt 32 w).toInt) = BitVec.ofInt 32 (v * w) := by
  rw [BitVec.ofInt_mul, BitVec.ofInt_mul, BitVec.ofInt_toInt, BitVec.ofInt_toInt]

theorem pow32_wrap_eq (a : Word) : ∀ (bits e : Nat), e < 2 ^ bits →
    pow32 .wrap a bits e = some (BitVec.ofInt 32 (a.toInt ^ e))
  | 0, e, h => by
    obtain rfl : e = 0 := by simpa using h
    simp [pow32]
  | bits + 1, e, h => by
    have ih := pow32_wrap_eq a bits (e / 2) (by omega)
    have ha : a = BitVec.ofInt 32 a.toInt := (BitVec.ofInt_toInt).symm
    simp only [pow32, ih, arith32_wrap]
    rw [pow_split a.toInt e, ofInt_toInt_mul]
    split
    · congr 1
      conv_lhs => rw [ha]
      simp only [BitVec.ofInt_toInt]
      rw [BitVec.ofInt_mul, BitVec.ofInt_toInt, BitVec.ofInt_toInt, BitVec.ofInt_mul (x := _ * _), BitVec.ofInt_toInt]
    · rfl

/-- A product whose left factor is out of range and whose right factor has absolute value at least 2 is out of range. -/
theorem not_fits32_mul {v w : Int} (hv : fits32 v = false) (hw : 2 ≤ w.natAbs) : fits32 (v * w) = false := by
  rw [← Bool.not_eq_true, fits32_iff] at hv ⊢
  have h1 : 2147483648 ≤ v.natAbs := by omega
  have h2 : 2147483648 * 2 ≤ v.natAbs * w.natAbs := Nat.mul_le_mul h1 hw
  rw [← Int.natAbs_mul] at h2
  omega

/-- The square of an out-of-range value is out of range. -/
theorem not_fits32_sq {v : Int} (hv : fits32 v = false) : fits32 (v * v) = false :=
  not_fits32_mul hv (by rw [← Bool.not_eq_true, fits32_iff] at hv; omega)

/-- A power with an out-of-range value has a base of absolute value at least 2. -/
theorem two_le_of_not_fits32_pow {a : Int} {e : Nat} (h : fits32 (a ^ e) = false) : 2 ≤ a.natAbs := by
  by_contra hlt
  have h1 : (a ^ e).natAbs ≤ 1 := by
    rw [Int.natAbs_pow]
    simpa using Nat.pow_le_pow_left (show a.natAbs ≤ 1 by omega) e
  rw [← Bool.not_eq_true, fits32_iff] at h
  omega

theorem pow32_fault_eq (a : Word) : ∀ (bits e : Nat), e < 2 ^ bits →
    pow32 .fault a bits e = arith32 .fault (a.toInt ^ e)
  | 0, e, h => by
    obtain rfl : e = 0 := by simpa using h
    rw [pow_zero, arith32_of_fits32 .fault (v := 1) rfl]
    rfl
  | bits + 1, e, h => by
    have ih := pow32_fault_eq a bits (e / 2) (by omega)
    have hsplit := pow_split a.toInt e
    cases hh : fits32 (a.toInt ^ (e / 2)) with
    | false =>
      have hsq := not_fits32_sq hh
      have hbig : fits32 (a.toInt ^ e) = false := by
        rw [hsplit]
        split
        · exact not_fits32_mul hsq (two_le_of_not_fits32_pow hh)
        · exact hsq
      simp [pow32, ih, arith32_fault_of_not_fits32 hh, arith32_fault_of_not_fits32 hbig]
    | true =>
      simp only [pow32, ih, arith32_of_fits32 .fault hh, toInt_ofInt_of_fits32 hh]
      cases hq : fits32 (a.toInt ^ (e / 2) * a.toInt ^ (e / 2)) with
      | false =>
        have hbase : 2 ≤ a.toInt.natAbs := by
          rw [← pow_add] at hq
          exact two_le_of_not_fits32_pow hq
        have hbig : fits32 (a.toInt ^ e) = false := by
          rw [hsplit]
          split
          · exact not_fits32_mul hq hbase
          · exact hq
        simp [arith32_fault_of_not_fits32 hq, arith32_fault_of_not_fits32 hbig]
      | true =>
        simp only [arith32_of_fits32 .fault hq, toInt_ofInt_of_fits32 hq]
        rw [hsplit]
        split
        · rfl
        · exact (arith32_of_fits32 .fault hq).symm

/-- The ALU's power by squaring is `arith32` of the exact integer power, in both modes (rule R75). -/
theorem pow32_eq_arith32 (mode : OverflowMode) (a : Word) (bits e : Nat) (h : e < 2 ^ bits) :
    pow32 mode a bits e = arith32 mode (a.toInt ^ e) := by
  cases mode with
  | wrap => rw [pow32_wrap_eq a bits e h, arith32_wrap]
  | fault => exact pow32_fault_eq a bits e h

end Sys2Proof.Laws
end

