-- ==== Sys2Proof/Laws/Assembly.lean ====
section
/-! SUPPORT. The lines of a text, once: splitting undoes joining by newlines and the reverse; trimming takes the padding away. -/

namespace Sys2Proof.Laws

open Sys2Proof.Machine

theorem dropWhile_append_of_all {p : Char → Bool} (a b : List Char) (ha : ∀ c ∈ a, p c = true) (hb : ∀ c ∈ b.head?, p c = false) :
    (a ++ b).dropWhile p = b := by
  induction a with
  | nil => cases b with
    | nil => rfl
    | cons c b => simp [hb c (by simp)]
  | cons c a ih =>
    simp only [List.cons_append, List.dropWhile_cons, ha c (by simp), if_true]
    exact ih (fun c h => ha c (by simp [h]))

theorem trimLine_padded (a m b : List Char) (ha : ∀ c ∈ a, isBlank c = true) (hb : ∀ c ∈ b, isBlank c = true)
    (hh : ∀ c ∈ m.head?, isBlank c = false) (hl : ∀ c ∈ m.getLast?, isBlank c = false) : trimLine (a ++ m ++ b) = m := by
  unfold trimLine
  cases m with
  | nil =>
    have : (a ++ [] ++ b).dropWhile isBlank = [] := by
      have := dropWhile_append_of_all (p := isBlank) (a ++ b) [] (by simpa [or_imp, forall_and] using ⟨ha, hb⟩) (by simp)
      simpa using this
    rw [this]; rfl
  | cons c m =>
    rw [List.append_assoc, dropWhile_append_of_all a _ ha (by intro d hd; exact hh d (by simpa using hd)), List.reverse_append,
      dropWhile_append_of_all b.reverse _ (by simpa using hb) (by rw [List.head?_reverse]; exact hl), List.reverse_reverse]

theorem textLines_append (l rest : List Char) (h : '\n' ∉ l) : textLines (l ++ '\n' :: rest) = l :: textLines rest := by
  induction l with
  | nil => simp [textLines]
  | cons c l ih =>
    simp only [List.mem_cons, not_or] at h
    simp [textLines, Ne.symm h.1, ih h.2]

theorem textLines_of_no_newline (l : List Char) (h : '\n' ∉ l) : textLines l = [l] := by
  induction l with
  | nil => rfl
  | cons c l ih =>
    simp only [List.mem_cons, not_or] at h
    simp [textLines, Ne.symm h.1, ih h.2]

theorem textLines_intercalate (ls : List (List Char)) (hne : ls ≠ []) (h : ∀ l ∈ ls, '\n' ∉ l) :
    textLines (List.intercalate ['\n'] ls) = ls := by
  induction ls with
  | nil => exact absurd rfl hne
  | cons l ls ih =>
    cases ls with
    | nil => simpa [List.intercalate] using textLines_of_no_newline l (h l (by simp))
    | cons l' ls =>
      have : List.intercalate ['\n'] (l :: l' :: ls) = l ++ '\n' :: List.intercalate ['\n'] (l' :: ls) := by
        simp [List.intercalate]
      rw [this, textLines_append _ _ (h l (by simp)), ih (by simp) (fun x hx => h x (List.mem_cons_of_mem _ hx))]

theorem intercalate_textLines (t : List Char) : List.intercalate ['\n'] (textLines t) = t := by
  induction t with
  | nil => rfl
  | cons c t ih =>
    simp only [textLines]
    cases hl : textLines t with
    | nil => cases t with
      | nil => simp [textLines] at hl
      | cons d t =>
        simp only [textLines] at hl
        split at hl
        · simp at hl
        · split at hl <;> simp at hl
    | cons a as =>
      rw [hl] at ih
      split
      · rename_i hc; subst hc; rw [← ih]; simp [List.intercalate]
      · rw [← ih]; cases as <;> simp [List.intercalate]

theorem textLines_no_newline (t : List Char) : textLines t ≠ [] ∧ ∀ l ∈ textLines t, '\n' ∉ l := by
  induction t with
  | nil => simp [textLines]
  | cons c t ih =>
    obtain ⟨h1, h2⟩ := ih
    simp only [textLines]
    split
    · exact ⟨by simp, by simpa using h2⟩
    · rename_i hc
      cases hl : textLines t with
      | nil => exact absurd hl h1
      | cons a as =>
        rw [hl] at h2
        refine ⟨by simp, fun l hm => ?_⟩
        rcases List.mem_cons.1 hm with rfl | hm
        · simp [Ne.symm hc, h2 a (by simp)]
        · exact h2 l (List.mem_cons_of_mem _ hm)

end Sys2Proof.Laws
end

