-- ==== Sys2Proof/Laws/Decode.lean ====
section
/-! SUPPORT. Small laws of the decoder and the encoder: the immediate's two bytes, and operand bytes taken back. -/

namespace Sys2Proof.Laws

/-- The immediate's value: the byte at the lower address counts 256-fold (rules R36, R49). -/
theorem immOfBytes_toNat (hi lo : Byte) : (immOfBytes hi lo).toNat = 256 * hi.toNat + lo.toNat := by
  have h : (immOfBytes hi lo).toNat = hi.toNat <<< 8 ||| lo.toNat := BitVec.toNat_append hi lo
  rw [h, ← Nat.shiftLeft_add_eq_or_of_lt lo.isLt, Nat.shiftLeft_eq]
  omega

theorem immHi_toNat (v : Half) : (immHi v).toNat = v.toNat / 256 := by
  have := v.isLt
  simp only [immHi, BitVec.extractLsb'_toNat, Nat.shiftRight_eq_div_pow]
  omega

theorem immLo_toNat (v : Half) : (immLo v).toNat = v.toNat % 256 := by
  simp only [immLo, BitVec.extractLsb'_toNat, Nat.shiftRight_eq_div_pow]
  omega

theorem immOfBytes_immHi_immLo (v : Half) : immOfBytes (immHi v) (immLo v) = v := by
  apply BitVec.eq_of_toNat_eq
  rw [immOfBytes_toNat, immHi_toNat, immLo_toNat]
  omega

theorem immHi_immOfBytes (hi lo : Byte) : immHi (immOfBytes hi lo) = hi := by
  apply BitVec.eq_of_toNat_eq
  rw [immHi_toNat, immOfBytes_toNat]
  omega

theorem immLo_immOfBytes (hi lo : Byte) : immLo (immOfBytes hi lo) = lo := by
  apply BitVec.eq_of_toNat_eq
  rw [immLo_toNat, immOfBytes_toNat]
  omega

theorem mem_opcode_all (k : Opcode) : k ∈ Opcode.all := by
  cases k <;> decide

/-- A decoded instruction is one JUMP_SET admits, under its own byte. -/
theorem decodeOpcode_some {p : Params} {op : Byte} {k : Opcode} (h : decodeOpcode p op = some k) :
    p.jumpSet.admits k = true ∧ p.opcodeMap.code k = op := by
  simpa using List.find?_some h

/-- No admitted instruction has a byte that decodes to ILLEGAL. -/
theorem decodeOpcode_none {p : Params} {op : Byte} :
    decodeOpcode p op = none ↔ ∀ k, p.jumpSet.admits k = true → p.opcodeMap.code k ≠ op := by
  simp only [decodeOpcode, List.find?_eq_none, Bool.and_eq_true, beq_iff_eq, not_and]
  exact ⟨fun h k => h k (mem_opcode_all k), fun h k _ => h k⟩

theorem not_assigned_iff {p : Params} {op : Byte} : p.assigned op = false ↔ decodeOpcode p op = none := by
  simp only [Params.assigned, decodeOpcode_none, List.any_eq_false, Bool.and_eq_true, beq_iff_eq, not_and]
  exact ⟨fun h k => h k (mem_opcode_all k), fun h k _ => h k⟩

theorem code_injective {m : OpcodeMap} (h : m.wf = true) {k l : Opcode} (hc : m.code k = m.code l) : k = l := by
  simp only [OpcodeMap.wf, Bool.and_eq_true, decide_eq_true_eq] at h
  exact List.inj_on_of_nodup_map h.2 (mem_opcode_all k) (mem_opcode_all l) hc

/-- The operand bytes of an instruction, followed by anything, are taken back as that instruction. -/
theorem takeOperands_operands {i : Instr} {k : Opcode} (h : i.opcode = some k) (rest : List Byte) :
    takeOperands k (i.operands ++ rest) = some (i, rest) := by
  cases i <;> simp only [Instr.opcode, Option.some.injEq, reduceCtorEq] at h <;> subst h <;>
    simp [takeOperands, Instr.operands, immOfBytes_immHi_immLo]

/-- What is taken has the opcode asked for, and its operand bytes and the rest make up the string. -/
theorem takeOperands_some {k : Opcode} {bs rest : List Byte} {i : Instr} (h : takeOperands k bs = some (i, rest)) :
    i.opcode = some k ∧ bs = i.operands ++ rest := by
  cases k <;>
    rcases bs with _ | ⟨a, _ | ⟨b, _ | ⟨c, bs⟩⟩⟩ <;>
    simp only [takeOperands, Option.some.injEq, Prod.mk.injEq, reduceCtorEq] at h <;>
    obtain ⟨rfl, rfl⟩ := h <;>
    simp [Instr.opcode, Instr.operands, immHi_immOfBytes, immLo_immOfBytes]

theorem operands_length {i : Instr} {k : Opcode} (h : i.opcode = some k) : i.operands.length = k.operandBytes := by
  cases i <;> simp only [Instr.opcode, Option.some.injEq, reduceCtorEq] at h <;> subst h <;> rfl

/-- Operands are there exactly when there are enough bytes (rule R46). -/
theorem takeOperands_isSome (k : Opcode) (bs : List Byte) :
    (takeOperands k bs).isSome = decide (k.operandBytes ≤ bs.length) := by
  cases k <;> rcases bs with _ | ⟨a, _ | ⟨b, _ | ⟨c, bs⟩⟩⟩ <;>
    simp [takeOperands, Opcode.operandBytes, Opcode.format]

end Sys2Proof.Laws
end

