-- ==== Sys2Proof/Laws/Memory.lean ====
section
/-! SUPPORT. The laws of the program buffer: its canonical form is kept, and a read gives what was written. -/

namespace Sys2Proof.Machine

theorem Memory.wfFrom_mono {lo hi : Nat} (h : lo ≤ hi) : ∀ {m : Memory}, m.wfFrom hi = true → m.wfFrom lo = true
  | [], _ => rfl
  | (a, v) :: m, hm => by
    simp only [Memory.wfFrom, Bool.and_eq_true, decide_eq_true_eq] at hm ⊢
    exact ⟨⟨by omega, hm.1.2⟩, hm.2⟩

/-- Below its first address a canonical memory lists nothing. -/
theorem Memory.read_of_lt_wfFrom {lo a : Nat} (h : a < lo) :
    ∀ {m : Memory}, m.wfFrom lo = true → m.read a = Memory.unlisted
  | [], _ => rfl
  | (b, v) :: m, hm => by
    simp only [Memory.wfFrom, Bool.and_eq_true, decide_eq_true_eq] at hm
    have hb : b ≠ a := by omega
    simp only [Memory.read, hb, if_false]
    exact Memory.read_of_lt_wfFrom (by omega) hm.2

theorem Memory.wfFrom_write {lo a : Nat} (v : Byte) (h : lo ≤ a) :
    ∀ {m : Memory}, m.wfFrom lo = true → (m.write a v).wfFrom lo = true
  | [], _ => by
    by_cases hv : v = Memory.unlisted <;> simp [Memory.write, Memory.wfFrom, hv, h]
  | (b, u) :: m, hm => by
    simp only [Memory.wfFrom, Bool.and_eq_true, decide_eq_true_eq, bne_iff_ne] at hm
    obtain ⟨⟨hb, hu⟩, hm⟩ := hm
    rcases lt_trichotomy a b with hab | hab | hab
    · by_cases hv : v = Memory.unlisted <;>
        simp [Memory.write, Memory.wfFrom, hab, hv, h, hb, hu, hm]
    · subst hab
      by_cases hv : v = Memory.unlisted
      · simpa [Memory.write, hv] using Memory.wfFrom_mono (by omega) hm
      · simpa [Memory.write, Memory.wfFrom, hv, h] using hm
    · have h1 : ¬ a < b := by omega
      have h2 : ¬ a = b := by omega
      simpa [Memory.write, Memory.wfFrom, h1, h2, hb, hu] using Memory.wfFrom_write v (by omega) hm

/-- A write keeps the canonical form. -/
theorem Memory.wf_write {m : Memory} (a : Nat) (v : Byte) (h : m.wf = true) : (m.write a v).wf = true :=
  Memory.wfFrom_write v (Nat.zero_le a) h

/-- A read after a write: the value written at its address, everything else as before. -/
theorem Memory.read_write_from {lo : Nat} (a : Nat) (v : Byte) (b : Nat) :
    ∀ {m : Memory}, m.wfFrom lo = true → (m.write a v).read b = if a = b then v else m.read b
  | [], _ => by
    by_cases hv : v = Memory.unlisted <;> simp [Memory.write, Memory.read, hv]
  | (c, u) :: m, hm => by
    simp only [Memory.wfFrom, Bool.and_eq_true, decide_eq_true_eq] at hm
    obtain ⟨-, hm⟩ := hm
    rcases lt_trichotomy a c with hac | hac | hac
    · by_cases hv : v = Memory.unlisted
      · by_cases hab : a = b
        · subst hab
          have hcb : c ≠ a := by omega
          simpa [Memory.write, hac, hv, Memory.read, hcb] using Memory.read_of_lt_wfFrom (by omega) hm
        · simp [Memory.write, hac, hv, hab]
      · simp [Memory.write, hac, hv, Memory.read]
    · subst hac
      by_cases hv : v = Memory.unlisted
      · by_cases hab : a = b
        · subst hab
          simpa [Memory.write, hv] using Memory.read_of_lt_wfFrom (by omega) hm
        · simp [Memory.write, hv, Memory.read, hab]
      · by_cases hab : a = b <;> simp [Memory.write, hv, Memory.read, hab]
    · have h1 : ¬ a < c := by omega
      have h2 : ¬ a = c := by omega
      have ih := Memory.read_write_from a v b hm
      by_cases hcb : c = b
      · subst hcb
        simp only [Memory.write, h1, h2, if_false, Memory.read, if_true]
      · simp [Memory.write, Memory.read, h1, h2, hcb, ih]

theorem Memory.read_write {m : Memory} (h : m.wf = true) (a : Nat) (v : Byte) (b : Nat) :
    (m.write a v).read b = if a = b then v else m.read b :=
  Memory.read_write_from a v b h

theorem Memory.wf_writeBytes : ∀ {m : Memory} (a : Nat) (vs : List Byte), m.wf = true → (m.writeBytes a vs).wf = true
  | _, _, [], h => h
  | _, a, v :: vs, h => Memory.wf_writeBytes (a + 1) vs (Memory.wf_write a v h)

/-- Consecutive bytes written from `a` are read back from there, and every other byte is as before. -/
theorem Memory.read_writeBytes : ∀ {m : Memory} (a : Nat) (vs : List Byte) (b : Nat), m.wf = true →
    (m.writeBytes a vs).read b = if h : a ≤ b ∧ b - a < vs.length then vs[b - a]'h.2 else m.read b
  | _, _, [], _, _ => by simp [Memory.writeBytes]
  | m, a, v :: vs, b, h => by
    rw [Memory.writeBytes, Memory.read_writeBytes (a + 1) vs b (Memory.wf_write a v h), Memory.read_write h]
    rcases lt_trichotomy a b with hab | hab | hab
    · obtain ⟨d, rfl⟩ : ∃ d, b = a + d + 1 := ⟨b - a - 1, by omega⟩
      have e1 : a + d + 1 - (a + 1) = d := by omega
      have e2 : a + d + 1 - a = d + 1 := by omega
      have e3 : ¬ a = a + d + 1 := by omega
      simp only [e1, e2, e3, if_false, List.length_cons, List.getElem_cons_succ]
      by_cases hd : d < vs.length
      · have h1 : a + 1 ≤ a + d + 1 ∧ d < vs.length := ⟨by omega, hd⟩
        have h2 : a ≤ a + d + 1 ∧ d + 1 < vs.length + 1 := ⟨by omega, by omega⟩
        rw [dif_pos h1, dif_pos h2]
      · have h1 : ¬ (a + 1 ≤ a + d + 1 ∧ d < vs.length) := fun hh => hd hh.2
        have h2 : ¬ (a ≤ a + d + 1 ∧ d + 1 < vs.length + 1) := fun hh => hd (by omega)
        rw [dif_neg h1, dif_neg h2]
    · subst hab
      have h1 : ¬ (a + 1 ≤ a ∧ a - (a + 1) < vs.length) := fun hh => by omega
      have h2 : a ≤ a ∧ a - a < (v :: vs).length := ⟨Nat.le_refl a, by simp⟩
      rw [dif_neg h1, dif_pos h2]
      simp
    · have h1 : ¬ (a + 1 ≤ b ∧ b - (a + 1) < vs.length) := fun hh => by omega
      have h2 : ¬ (a ≤ b ∧ b - a < (v :: vs).length) := fun hh => by omega
      rw [dif_neg h1, dif_neg h2, if_neg (by omega)]

/-- No address at or beyond a bound is listed after bytes below it are written. -/
theorem Memory.all_lt_write {n a : Nat} (v : Byte) (ha : a < n) :
    ∀ {m : Memory}, m.all (fun c => decide (c.1 < n)) = true → (m.write a v).all (fun c => decide (c.1 < n)) = true
  | [], _ => by
    by_cases hv : v = Memory.unlisted <;> simp [Memory.write, hv, ha]
  | (b, u) :: m, h => by
    simp only [List.all_cons, Bool.and_eq_true, decide_eq_true_eq] at h
    rcases lt_trichotomy a b with hab | hab | hab
    · by_cases hv : v = Memory.unlisted
      · simpa [Memory.write, hab, hv] using h
      · simpa [Memory.write, hab, hv, ha] using h
    · by_cases hv : v = Memory.unlisted
      · simpa [Memory.write, hab, hv] using h.2
      · simpa [Memory.write, hab, hv, h.1] using h.2
    · have h1 : ¬ a < b := by omega
      have h2 : ¬ a = b := by omega
      have ih := Memory.all_lt_write v ha h.2
      simp only [Memory.write, h1, h2, if_false, List.all_cons, Bool.and_eq_true, decide_eq_true_eq]
      exact ⟨h.1, ih⟩

theorem Memory.all_lt_writeBytes {n : Nat} : ∀ {m : Memory} (a : Nat) (vs : List Byte), a + vs.length ≤ n →
    m.all (fun c => decide (c.1 < n)) = true → (m.writeBytes a vs).all (fun c => decide (c.1 < n)) = true
  | _, _, [], _, h => h
  | _, a, v :: vs, hn, h => by
    simp only [List.length_cons] at hn
    exact Memory.all_lt_writeBytes (a + 1) vs (by omega) (Memory.all_lt_write v (by omega) h)

theorem State.reset_prog_wf : State.reset.prog.wf = true := rfl

/-! ### Reading bytes of the program -/

theorem memRead_of_lt {s : State} {a : Nat} (h : a < s.progLen.toNat) : memRead s a = some (s.prog.read a) := by
  simp [memRead, h]

theorem memRead_eq_some {s : State} {a : Nat} {b : Byte} (h : memRead s a = some b) : a < s.progLen.toNat := by
  simp only [memRead] at h
  split at h <;> simp_all

/-- Bytes below `L` are all there. -/
theorem memReadBytes_isSome (s : State) : ∀ (n : Nat) {a : Nat}, a + n ≤ s.progLen.toNat →
    ∃ bs, memReadBytes s a n = some bs
  | 0, _, _ => ⟨[], rfl⟩
  | n + 1, a, h => by
    have ha : a < s.progLen.toNat := by omega
    obtain ⟨bs, hbs⟩ := memReadBytes_isSome s n (a := a + 1) (by omega)
    exact ⟨s.prog.read a :: bs, by simp only [memReadBytes, memRead_of_lt ha, hbs]⟩

theorem memReadBytes_length {s : State} : ∀ (n : Nat) {a : Nat} {bs : List Byte},
    memReadBytes s a n = some bs → bs.length = n
  | 0, _, _, h => by simp_all [memReadBytes]
  | n + 1, a, bs, h => by
    simp only [memReadBytes] at h
    split at h
    · rename_i b bs' _ hbs
      obtain rfl : b :: bs' = bs := by simpa using h
      simp [memReadBytes_length n hbs]
    · cases h

/-- What is read depends on the program buffer and its length alone. -/
theorem memReadBytes_congr {s t : State} (hp : s.prog = t.prog) (hl : s.progLen = t.progLen) :
    ∀ (n a : Nat), memReadBytes s a n = memReadBytes t a n
  | 0, _ => rfl
  | n + 1, a => by simp only [memReadBytes, memRead, hp, hl, memReadBytes_congr hp hl n (a + 1)]

/-- A shorter read is the beginning of a longer one. -/
theorem memReadBytes_take {s : State} : ∀ (m n : Nat) {a : Nat} {bs : List Byte}, m ≤ n →
    memReadBytes s a n = some bs → memReadBytes s a m = some (bs.take m)
  | 0, _, _, _, _, _ => by simp [memReadBytes]
  | m + 1, 0, _, _, hmn, _ => by omega
  | m + 1, n + 1, a, bs, hmn, h => by
    simp only [memReadBytes] at h ⊢
    split at h
    · rename_i b bs' hb hbs
      obtain rfl : b :: bs' = bs := by simpa using h
      simp [hb, memReadBytes_take m n (by omega) hbs]
    · cases h

end Sys2Proof.Machine
end

