-- ==== Sys2Proof/Laws/Fetch.lean ====
section
/-! SUPPORT. What the fetch unit can find, once: exhaustion, overrun, or a whole instruction below `L`; never an absent byte. -/

namespace Sys2Proof.Laws

open Sys2Proof.Machine

theorem fetchOperands_in_range {s : State} {k : Opcode} (h : s.pc.toNat + 1 + k.operandBytes ≤ s.progLen.toNat) :
    ∃ bs i, memReadBytes s (s.pc.toNat + 1) k.operandBytes = some bs ∧ takeOperands k bs = some (i, []) ∧
      fetchOperands s k = .instr i := by
  obtain ⟨bs, hbs⟩ := memReadBytes_isSome s k.operandBytes h
  have hlen := memReadBytes_length _ hbs
  have hsome := takeOperands_isSome k bs
  rw [hlen, decide_eq_true (Nat.le_refl _), Option.isSome_iff_exists] at hsome
  obtain ⟨⟨i, rest⟩, hi⟩ := hsome
  obtain ⟨hop, hsplit⟩ := takeOperands_some hi
  have hrest : rest = [] := by
    have := congrArg List.length hsplit
    rw [List.length_append, operands_length hop, hlen] at this
    exact List.length_eq_zero_iff.1 (by omega)
  subst hrest
  refine ⟨bs, i, hbs, hi, ?_⟩
  have h' : ¬ s.progLen.toNat < s.pc.toNat + 1 + k.operandBytes := by omega
  simp [fetchOperands, h', hbs, hi]

theorem fetchOperands_overrun {s : State} {k : Opcode} (h : s.progLen.toNat < s.pc.toNat + 1 + k.operandBytes) :
    fetchOperands s k = .overrun := by
  simp [fetchOperands, h]

/-- Everything `fetch` can answer, with what holds of the program where it does. -/
theorem fetch_cases (s : State) :
    (s.progLen.toNat ≤ s.pc.toNat ∧ fetch s = .exhausted) ∨
    (s.pc.toNat < s.progLen.toNat ∧
      ((decodeOpcode s.params (s.prog.read s.pc.toNat) = none ∧
          fetch s = .instr (.illegal (s.prog.read s.pc.toNat))) ∨
       ∃ k, decodeOpcode s.params (s.prog.read s.pc.toNat) = some k ∧
         ((s.progLen.toNat < s.pc.toNat + 1 + k.operandBytes ∧ fetch s = .overrun) ∨
          (s.pc.toNat + 1 + k.operandBytes ≤ s.progLen.toNat ∧
            ∃ i, i.opcode = some k ∧ fetch s = .instr i)))) := by
  rcases Nat.lt_or_ge s.pc.toNat s.progLen.toNat with h | h
  · right
    refine ⟨h, ?_⟩
    have hf : ∀ o, decodeOpcode s.params (s.prog.read s.pc.toNat) = o →
        fetch s = match o with | none => .instr (.illegal (s.prog.read s.pc.toNat)) | some k => fetchOperands s k := by
      intro o ho
      rw [fetch, if_neg (Nat.not_le.2 h), memRead_of_lt h]
      subst ho
      rfl
    cases hd : decodeOpcode s.params (s.prog.read s.pc.toNat) with
    | none => exact .inl ⟨rfl, hf _ hd⟩
    | some k =>
      right
      refine ⟨k, rfl, ?_⟩
      rcases Nat.lt_or_ge s.progLen.toNat (s.pc.toNat + 1 + k.operandBytes) with hk | hk
      · exact .inl ⟨hk, (hf _ hd).trans (fetchOperands_overrun hk)⟩
      · obtain ⟨bs, i, -, hi, hfi⟩ := fetchOperands_in_range hk
        exact .inr ⟨hk, i, (takeOperands_some hi).1, (hf _ hd).trans hfi⟩
  · exact .inl ⟨h, by simp [fetch, h]⟩

theorem fetch_ne_absent (s : State) : fetch s ≠ .absent := by
  rcases fetch_cases s with ⟨-, h⟩ | ⟨-, ⟨-, h⟩ | ⟨k, -, ⟨-, h⟩ | ⟨-, i, -, h⟩⟩⟩ <;> simp [h]

/-- What is fetched depends on `pc` and the launch data alone. -/
theorem fetch_congr {s t : State} (hpc : s.pc = t.pc) (hp : s.prog = t.prog) (hl : s.progLen = t.progLen)
    (hq : s.params = t.params) : fetch s = fetch t := by
  simp only [fetch, fetchOperands, memRead, memReadBytes_congr hp hl, hpc, hp, hl, hq]

end Sys2Proof.Laws
end

