-- ==== Sys2Proof/Laws/Operands.lean ====
section
/-! SUPPORT. What the shared operand forms can do, once: the register check, the three-register form, a write of a result, a jump. -/

namespace Sys2Proof.Laws

open Sys2Proof.Machine

theorem regIndex_of_lt {b : Byte} (h : b.toNat < 32) : regIndex b = some ⟨b.toNat, h⟩ := by
  simp [regIndex, h]

theorem regIndex_of_ge {b : Byte} (h : 32 ≤ b.toNat) : regIndex b = none := by
  have h' : ¬ b.toNat < 32 := by omega
  simp [regIndex, h']

theorem withReg_of_lt {s : State} {b : Byte} (h : b.toNat < 32) (k : RegIdx → Result) :
    withReg s b k = k ⟨b.toNat, h⟩ := by
  simp [withReg, regIndex_of_lt h]

theorem withReg_of_ge {s : State} {b : Byte} (h : 32 ≤ b.toNat) (k : RegIdx → Result) :
    withReg s b k = .next (raiseFault s .registerIndexRange (b.setWidth 32)) := by
  simp [withReg, regIndex_of_ge h]

/-- With three existing registers the common form goes on with the two sources of the state before and the destination. -/
theorem withRRR_of_lt {s : State} {r1 r2 rd : Byte} (h1 : r1.toNat < 32) (h2 : r2.toNat < 32) (hd : rd.toNat < 32)
    (k : Word → Word → RegIdx → Result) :
    withRRR r1 r2 rd s k = k s.x[r1.toNat] s.x[r2.toNat] ⟨rd.toNat, hd⟩ := by
  simp [withRRR, withReg_of_lt, h1, h2, hd, readReg]

/-- With a register that does not exist the common form raises RegisterIndexRange on the first one. -/
theorem withRRR_of_ge {s : State} {r1 r2 rd b : Byte} (k : Word → Word → RegIdx → Result)
    (h : [r1, r2, rd].find? (fun r => decide (32 ≤ r.toNat)) = some b) :
    withRRR r1 r2 rd s k = .next (raiseFault s .registerIndexRange (b.setWidth 32)) := by
  rcases Nat.lt_or_ge r1.toNat 32 with h1 | h1
  · rcases Nat.lt_or_ge r2.toNat 32 with h2 | h2
    · rcases Nat.lt_or_ge rd.toNat 32 with hd | hd
      · simp [Nat.not_le.2 h1, Nat.not_le.2 h2, Nat.not_le.2 hd] at h
      · obtain rfl : rd = b := by simpa [Nat.not_le.2 h1, Nat.not_le.2 h2, hd] using h
        simp [withRRR, withReg_of_lt, withReg_of_ge, h1, h2, hd]
    · obtain rfl : r2 = b := by simpa [Nat.not_le.2 h1, h2] using h
      simp [withRRR, withReg_of_lt, withReg_of_ge, h1, h2]
  · obtain rfl : r1 = b := by simpa [h1] using h
    simp [withRRR, withReg_of_ge, h1]

theorem writeResult_some (s : State) (d : RegIdx) (w : Word) :
    writeResult s d (some w) = .next (advance (writeReg s d w) 4) := rfl

theorem writeResult_none (s : State) (d : RegIdx) :
    writeResult s d none = .next (raiseFault s .arithmeticOverflow 0) := rfl

theorem jumpTo_in_range (s : State) {t : Int} (h0 : 0 ≤ t) (h1 : t ≤ 4294967295) :
    jumpTo s t = .next { s with pc := BitVec.ofInt 32 t } := by
  have h : ¬ (t < 0 ∨ 4294967295 < t) := by omega
  simp [jumpTo, h]

theorem jumpTo_out_of_range (s : State) {t : Int} (h : t < 0 ∨ 4294967295 < t) :
    jumpTo s t = .next (raiseFault s .pcRange 0) := by
  simp [jumpTo, h]

end Sys2Proof.Laws
end

