-- ==== Sys2Proof/Laws/PerInstr.lean ====
section
/-! SUPPORT. Statements about every instruction as syntax, one lemma per constructor. -/

namespace Sys2Proof.Laws.EncodedLength

/-- Under every OPCODE_MAP the encoding has the length of rule R46, one opcode byte and `OperandBytes(k)` operand bytes; ILLEGAL
has none (rule R50). -/
def Statement (i : Instr) : Prop :=
  ∀ m : OpcodeMap, (encode m i).map List.length = i.opcode.map (fun k => 1 + k.operandBytes)

theorem halt : Statement .halt := fun _ => rfl

theorem not : Statement .not := fun _ => rfl

theorem jmp (r : Byte) : Statement (.jmp r) := fun _ => rfl

theorem jmpf (r : Byte) : Statement (.jmpf r) := fun _ => rfl

theorem jmpb (r : Byte) : Statement (.jmpb r) := fun _ => rfl

theorem jmpif (r : Byte) : Statement (.jmpif r) := fun _ => rfl

theorem eq (r1 r2 : Byte) : Statement (.eq r1 r2) := fun _ => rfl

theorem gt (r1 r2 : Byte) : Statement (.gt r1 r2) := fun _ => rfl

theorem gte (r1 r2 : Byte) : Statement (.gte r1 r2) := fun _ => rfl

theorem add (r1 r2 rd : Byte) : Statement (.add r1 r2 rd) := fun _ => rfl

theorem sub (r1 r2 rd : Byte) : Statement (.sub r1 r2 rd) := fun _ => rfl

theorem mul (r1 r2 rd : Byte) : Statement (.mul r1 r2 rd) := fun _ => rfl

theorem div (r1 r2 rd : Byte) : Statement (.div r1 r2 rd) := fun _ => rfl

theorem pow (r1 r2 rd : Byte) : Statement (.pow r1 r2 rd) := fun _ => rfl

theorem load (r : Byte) (v : Half) : Statement (.load r v) := fun _ => rfl

theorem illegal (op : Byte) : Statement (.illegal op) := fun _ => rfl

end Sys2Proof.Laws.EncodedLength
end

