-- ==== Sys2Proof/Laws/State.lean ====
section
/-! SUPPORT. One lemma per field of State and per update, so that no proof unfolds a record update. -/

namespace Sys2Proof.Machine

variable (s : State)

@[simp] theorem writeReg_x (i : RegIdx) (v : Word) : (writeReg s i v).x = s.x.set i v := rfl
@[simp] theorem writeReg_pc (i : RegIdx) (v : Word) : (writeReg s i v).pc = s.pc := rfl
@[simp] theorem writeReg_cmp (i : RegIdx) (v : Word) : (writeReg s i v).cmp = s.cmp := rfl
@[simp] theorem writeReg_remainder (i : RegIdx) (v : Word) : (writeReg s i v).remainder = s.remainder := rfl
@[simp] theorem writeReg_runState (i : RegIdx) (v : Word) : (writeReg s i v).runState = s.runState := rfl
@[simp] theorem writeReg_faultCause (i : RegIdx) (v : Word) : (writeReg s i v).faultCause = s.faultCause := rfl
@[simp] theorem writeReg_faultInfo (i : RegIdx) (v : Word) : (writeReg s i v).faultInfo = s.faultInfo := rfl
@[simp] theorem writeReg_prog (i : RegIdx) (v : Word) : (writeReg s i v).prog = s.prog := rfl
@[simp] theorem writeReg_progLen (i : RegIdx) (v : Word) : (writeReg s i v).progLen = s.progLen := rfl
@[simp] theorem writeReg_params (i : RegIdx) (v : Word) : (writeReg s i v).params = s.params := rfl

@[simp] theorem writeCmp_x (b : Bool) : (writeCmp s b).x = s.x := rfl
@[simp] theorem writeCmp_pc (b : Bool) : (writeCmp s b).pc = s.pc := rfl
@[simp] theorem writeCmp_cmp (b : Bool) : (writeCmp s b).cmp = b := rfl
@[simp] theorem writeCmp_remainder (b : Bool) : (writeCmp s b).remainder = s.remainder := rfl
@[simp] theorem writeCmp_runState (b : Bool) : (writeCmp s b).runState = s.runState := rfl
@[simp] theorem writeCmp_faultCause (b : Bool) : (writeCmp s b).faultCause = s.faultCause := rfl
@[simp] theorem writeCmp_faultInfo (b : Bool) : (writeCmp s b).faultInfo = s.faultInfo := rfl
@[simp] theorem writeCmp_prog (b : Bool) : (writeCmp s b).prog = s.prog := rfl
@[simp] theorem writeCmp_progLen (b : Bool) : (writeCmp s b).progLen = s.progLen := rfl
@[simp] theorem writeCmp_params (b : Bool) : (writeCmp s b).params = s.params := rfl

@[simp] theorem writeRemainder_x (m : Word) : (writeRemainder s m).x = s.x := rfl
@[simp] theorem writeRemainder_pc (m : Word) : (writeRemainder s m).pc = s.pc := rfl
@[simp] theorem writeRemainder_cmp (m : Word) : (writeRemainder s m).cmp = s.cmp := rfl
@[simp] theorem writeRemainder_remainder (m : Word) : (writeRemainder s m).remainder = m := rfl
@[simp] theorem writeRemainder_runState (m : Word) : (writeRemainder s m).runState = s.runState := rfl
@[simp] theorem writeRemainder_faultCause (m : Word) : (writeRemainder s m).faultCause = s.faultCause := rfl
@[simp] theorem writeRemainder_faultInfo (m : Word) : (writeRemainder s m).faultInfo = s.faultInfo := rfl
@[simp] theorem writeRemainder_prog (m : Word) : (writeRemainder s m).prog = s.prog := rfl
@[simp] theorem writeRemainder_progLen (m : Word) : (writeRemainder s m).progLen = s.progLen := rfl
@[simp] theorem writeRemainder_params (m : Word) : (writeRemainder s m).params = s.params := rfl

@[simp] theorem advance_x (len : Nat) : (advance s len).x = s.x := rfl
@[simp] theorem advance_pc (len : Nat) : (advance s len).pc = s.pc + BitVec.ofNat 32 len := rfl
@[simp] theorem advance_cmp (len : Nat) : (advance s len).cmp = s.cmp := rfl
@[simp] theorem advance_remainder (len : Nat) : (advance s len).remainder = s.remainder := rfl
@[simp] theorem advance_runState (len : Nat) : (advance s len).runState = s.runState := rfl
@[simp] theorem advance_faultCause (len : Nat) : (advance s len).faultCause = s.faultCause := rfl
@[simp] theorem advance_faultInfo (len : Nat) : (advance s len).faultInfo = s.faultInfo := rfl
@[simp] theorem advance_prog (len : Nat) : (advance s len).prog = s.prog := rfl
@[simp] theorem advance_progLen (len : Nat) : (advance s len).progLen = s.progLen := rfl
@[simp] theorem advance_params (len : Nat) : (advance s len).params = s.params := rfl

@[simp] theorem halt_x : (halt s).x = s.x := rfl
@[simp] theorem halt_pc : (halt s).pc = s.pc := rfl
@[simp] theorem halt_cmp : (halt s).cmp = s.cmp := rfl
@[simp] theorem halt_remainder : (halt s).remainder = s.remainder := rfl
@[simp] theorem halt_runState : (halt s).runState = .halted := rfl
@[simp] theorem halt_faultCause : (halt s).faultCause = s.faultCause := rfl
@[simp] theorem halt_faultInfo : (halt s).faultInfo = s.faultInfo := rfl
@[simp] theorem halt_prog : (halt s).prog = s.prog := rfl
@[simp] theorem halt_progLen : (halt s).progLen = s.progLen := rfl
@[simp] theorem halt_params : (halt s).params = s.params := rfl

@[simp] theorem raiseFault_x (c : Cause) (info : BitVec 32) : (raiseFault s c info).x = s.x := rfl
@[simp] theorem raiseFault_pc (c : Cause) (info : BitVec 32) : (raiseFault s c info).pc = s.pc := rfl
@[simp] theorem raiseFault_cmp (c : Cause) (info : BitVec 32) : (raiseFault s c info).cmp = s.cmp := rfl
@[simp] theorem raiseFault_remainder (c : Cause) (info : BitVec 32) : (raiseFault s c info).remainder = s.remainder := rfl
@[simp] theorem raiseFault_runState (c : Cause) (info : BitVec 32) : (raiseFault s c info).runState = .halted := rfl
@[simp] theorem raiseFault_faultCause (c : Cause) (info : BitVec 32) : (raiseFault s c info).faultCause = c.code := rfl
@[simp] theorem raiseFault_faultInfo (c : Cause) (info : BitVec 32) : (raiseFault s c info).faultInfo = info := rfl
@[simp] theorem raiseFault_prog (c : Cause) (info : BitVec 32) : (raiseFault s c info).prog = s.prog := rfl
@[simp] theorem raiseFault_progLen (c : Cause) (info : BitVec 32) : (raiseFault s c info).progLen = s.progLen := rfl
@[simp] theorem raiseFault_params (c : Cause) (info : BitVec 32) : (raiseFault s c info).params = s.params := rfl

/-- Reading a register after a write to one. -/
@[simp] theorem readReg_writeReg (i j : RegIdx) (v : Word) :
    readReg (writeReg s i v) j = if i = j then v else readReg s j := by
  simp only [readReg, writeReg, Fin.getElem_fin, Vector.getElem_set, Fin.ext_iff]

@[simp] theorem reset_readReg (i : RegIdx) : readReg State.reset i = 0 := by
  simp [readReg, State.reset]

end Sys2Proof.Machine
end

