-- ==== Sys2Proof/Tests/Slice0.lean ====
section
/-! SUPPORT. The model's own tests: expected results are the rows of spec/95_test_vectors.md (sections 1 and 2) or hand
calculation from the rule named. After them, for each obligation with hypotheses, a witness that meets them together. -/

namespace Sys2Proof.Tests

open Sys2Proof.Machine Sys2Proof.Claims

/-! ### Builders and views -/

/-- A program at offset 0 of a freshly reset core, the first registers, `cmp`, and the parameters. -/
def small (bytes : List Byte) (regs : List Int) (cmp : Bool := false) (p : Params := .spec) : State :=
  { State.reset with
    x := Vector.ofFn (fun i => BitVec.ofInt 32 (regs.getD i.val 0))
    cmp := cmp
    prog := Memory.writeBytes [] 0 bytes
    progLen := BitVec.ofNat 32 bytes.length
    params := p }

/-- The same, somewhere else in a program that fills the largest buffer of rule R31. -/
def high (pc : Nat) (bytes : List Byte) (regs : List Int) : State :=
  { small [] regs with
    pc := BitVec.ofNat 32 pc
    prog := Memory.writeBytes [] pc bytes
    progLen := 4294967295 }

/-- This spec's parameters with one of them changed. -/
def faultMode : Params := { Params.spec with overflowMode := .fault }
/-- Relative jumps based on the jump itself. -/
def selfBase : Params := { Params.spec with relBase := .self }
/-- The decoder without JMPIF. -/
def relativeOnly : Params := { Params.spec with jumpSet := .relativeOnly }
/-- The decoder without JMPF and JMPB. -/
def jumpifOnly : Params := { Params.spec with jumpSet := .jumpifOnly }

/-- The next state, if there is one. -/
def nextOf : Result → Option State
  | .next t => some t
  | .fault _ | .refused _ => none

/-- `x[k]`, `pc` and `remainder` after one step that leaves the core Running. -/
def after (s : State) (k : RegIdx) : Option (Int × Nat × Int) :=
  match nextOf (step s) with
  | some t => if t.runState = .running then some (t.x[k].toInt, t.pc.toNat, t.remainder.toInt) else none
  | none => none

/-- `cmp` and `pc` after one step that leaves the core Running. -/
def flagAfter (s : State) : Option (Bool × Nat) :=
  match nextOf (step s) with
  | some t => if t.runState = .running then some (t.cmp, t.pc.toNat) else none
  | none => none

/-- `fault_cause`, `fault_info` and `pc` after one step that halts the core and changes no register, no flag and no remainder. -/
def stopped (s : State) : Option (Nat × Nat × Nat) :=
  match nextOf (step s) with
  | some t =>
    if t.runState = .halted ∧ t.x = s.x ∧ t.cmp = s.cmp ∧ t.remainder = s.remainder then
      some (t.faultCause.toNat, t.faultInfo.toNat, t.pc.toNat)
    else none
  | none => none

/-! ### What WellFormed and the invariant refuse -/

theorem test_wf_illegal_of_an_assigned_byte : (Instr.illegal 0x0E).wf .spec = false := by decide
theorem test_wf_illegal_of_a_free_byte : (Instr.illegal 0x0F).wf .spec = true := by decide
theorem test_wf_relative_only : (Instr.jmpif 0).wf relativeOnly = false ∧ (Instr.jmpf 0).wf relativeOnly = true := by decide
theorem test_wf_jumpif_only_jmpf : (Instr.jmpf 0).wf jumpifOnly = false := by decide
theorem test_wf_jumpif_only_jmpb : (Instr.jmpb 0).wf jumpifOnly = false := by decide
theorem test_wf_removed_byte_is_free : (Instr.illegal 0x05).wf relativeOnly = true := by decide
theorem test_wf_illegal_is_not_representable :
    (Instr.illegal 0xFF).representable .spec = false ∧ (Instr.add 255 0 31).representable .spec = true := by decide
theorem test_wf_map_byte_too_large : OpcodeMap.wf { OpcodeMap.spec with load := 0x20 } = false := by decide
theorem test_wf_map_last_byte : OpcodeMap.wf { OpcodeMap.spec with load := 0x1F } = true := by decide
theorem test_wf_map_not_injective : Params.wf { Params.spec with opcodeMap := { OpcodeMap.spec with pow := 0x0E } } = false := by
  decide
theorem test_wf_memory_unsorted : Memory.wf [(1, 5), (0, 5)] = false := by decide
theorem test_wf_memory_repeated : Memory.wf [(1, 5), (1, 6)] = false := by decide
theorem test_wf_memory_lists_zero : Memory.wf [(0, 0)] = false := by decide
theorem test_wf_memory_good : Memory.wf [(0, 5), (7, 1)] = true := by decide
theorem test_inv_byte_beyond_the_program : ¬ State.LaunchInv { State.reset with prog := [(0, 1)] } := by decide
theorem test_inv_running_with_a_cause : ¬ State.StatusInv { small [0x0F] [] with faultCause := 1 } := by decide
theorem test_inv_unknown_cause : ¬ State.StatusInv { small [0x0F] [] with faultCause := 8, runState := .halted } := by decide
theorem test_inv_fault_outside_the_program : ¬ State.StatusInv { State.reset with faultCause := 5, runState := .halted } := by
  decide
theorem test_inv_datum_of_illegal_opcode :
    ¬ State.StatusInv { small [0x0F] [] with faultCause := 1, faultInfo := 256, runState := .halted } := by decide
theorem test_inv_datum_of_register_index :
    ¬ State.StatusInv { small [0x02, 0x20] [] with faultCause := 4, faultInfo := 31, runState := .halted } := by decide
theorem test_inv_datum_of_other_causes :
    ¬ State.StatusInv { small [0x0C] [] with faultCause := 2, faultInfo := 1, runState := .halted } := by decide
theorem test_inv_overflow_needs_the_mode : ¬ State.StatusInv { small [0x09] [] with faultCause := 7, runState := .halted } := by
  decide

/-! ### Decoding: the words of section 2.1, bit by bit from rules R45 to R53 -/

theorem test_decode_halt : decode .spec [0b00000000] = .ok (.halt, []) := by decide
theorem test_decode_not : decode .spec [0b00000001] = .ok (.not, []) := by decide
theorem test_decode_jmp : decode .spec [0b00000010, 0b00011111] = .ok (.jmp 31, []) := by decide
theorem test_decode_jmpf : decode .spec [0b00000011, 0b00000000] = .ok (.jmpf 0, []) := by decide
theorem test_decode_jmpb : decode .spec [0b00000100, 0b00000100] = .ok (.jmpb 4, []) := by decide
theorem test_decode_jmpif : decode .spec [0b00000101, 0b00000011] = .ok (.jmpif 3, []) := by decide
theorem test_decode_eq : decode .spec [0b00000110, 0b00000000, 0b00000010] = .ok (.eq 0 2, []) := by decide
theorem test_decode_gt : decode .spec [0b00000111, 0b00000000, 0b00000011] = .ok (.gt 0 3, []) := by decide
theorem test_decode_gte : decode .spec [0b00001000, 0b00011110, 0b00011111] = .ok (.gte 30 31, []) := by decide
theorem test_decode_add : decode .spec [0b00001001, 0b00100001, 0b00100010, 0b00100011] = .ok (.add 33 34 35, []) := by decide
theorem test_decode_sub : decode .spec [0b00001010, 0b00000000, 0b00000001, 0b00000010] = .ok (.sub 0 1 2, []) := by decide
theorem test_decode_mul : decode .spec [0b00001011, 0b00000001, 0b00000010, 0b00000001] = .ok (.mul 1 2 1, []) := by decide
theorem test_decode_div : decode .spec [0b00001100, 0b00000000, 0b00000001, 0b00000010] = .ok (.div 0 1 2, []) := by decide
theorem test_decode_pow : decode .spec [0b00001101, 0b00000100, 0b00000101, 0b00000110] = .ok (.pow 4 5 6, []) := by decide
theorem test_decode_load : decode .spec [0b00001110, 0b00000000, 0b00010010, 0b00110100] = .ok (.load 0 4660, []) := by decide
theorem test_decode_illegal : ∀ op ∈ ([0x0F, 0x10, 0x1F, 0x20, 0x29, 0x80, 0xFF] : List Byte),
    decode .spec [op, 0x00] = .ok (.illegal op, [0x00]) := by decide
theorem test_decode_truncated : decode .spec [0x09, 0x00, 0x01] = .error .truncated ∧ decode .spec [] = .error .empty := by decide
/-- Rule R58. -/
theorem test_decode_jump_sets : decodeOpcode relativeOnly 0x05 = none ∧ decodeOpcode jumpifOnly 0x03 = none ∧
    decodeOpcode jumpifOnly 0x04 = none := by decide
/-- Section 2.1, the two immediates at the ends of the range. -/
theorem test_encode_load : encode .spec (.load 5 0x7FFF) = some [0x0E, 0x05, 0x7F, 0xFF] ∧
    encode .spec (.load 5 0x8000) = some [0x0E, 0x05, 0x80, 0x00] := by decide
/-- spec/opcode_table.json numbers bit 0 as the least significant bit of the first byte. -/
theorem test_table_word : decodeTableWord 32 0x02010009 = some (.add 0 1 2) ∧ decodeTableWord 16 0x1F02 = some (.jmp 31) ∧
    decodeTableWord 32 0x3412000E = some (.load 0 0x1234) := by decide
theorem test_fetch_word : fetch (State.reset.withFetchWord 16 0x1F02) = .instr (.jmp 31) := by decide

/-! ### One step each: sections 2.2 to 2.6 -/

theorem test_add : ∀ v ∈ ([(9, 3, 12), (2147483647, 1, -2147483648), (-2147483648, -2147483648, 0), (2147483647, 2147483647, -2),
    (-5, 5, 0)] : List (Int × Int × Int)), after (small [0x09, 0, 1, 2] [v.1, v.2.1]) 2 = some (v.2.2, 4, 0) := by decide
/-- S4 and the aliasing vectors below the table of section 2.2. -/
theorem test_add_aliased : after (small [0x09, 0, 1, 0] [5, 7]) 0 = some (12, 4, 0) ∧
    after (small [0x09, 3, 3, 3] [0, 0, 0, 21]) 3 = some (42, 4, 0) := by decide
theorem test_sub : ∀ v ∈ ([(2, 6, -4), (-2147483648, 1, 2147483647), (0, -2147483648, -2147483648),
    (2147483647, -1, -2147483648)] : List (Int × Int × Int)),
    after (small [0x0A, 0, 1, 2] [v.1, v.2.1]) 2 = some (v.2.2, 4, 0) := by decide
theorem test_sub_aliased : after (small [0x0A, 0, 1, 1] [5, 7]) 1 = some (-2, 4, 0) := by decide
theorem test_mul : ∀ v ∈ ([(3, 2, 6), (-7, 6, -42), (65536, 65536, 0), (46341, 46341, -2147479015),
    (-2147483648, -1, -2147483648), (2147483647, 2147483647, 1), (32767, 32767, 1073676289)] : List (Int × Int × Int)),
    after (small [0x0B, 0, 1, 2] [v.1, v.2.1]) 2 = some (v.2.2, 4, 0) := by decide
theorem test_div : ∀ v ∈ ([(7, 2, 3, 1), (-7, 2, -3, -1), (7, -2, -3, 1), (-7, -2, 3, -1), (0, 5, 0, 0), (5, 7, 0, 5),
    (-5, 7, 0, -5), (-2147483648, -1, -2147483648, 0), (-2147483648, 1, -2147483648, 0), (2147483647, -1, -2147483647, 0),
    (-2147483648, 2147483647, -1, -1), (1, -2147483648, 0, 1)] : List (Int × Int × Int × Int)),
    after (small [0x0C, 0, 1, 2] [v.1, v.2.1]) 2 = some (v.2.2.1, 4, v.2.2.2) := by decide
theorem test_div_faults : stopped (small [0x0C, 0, 1, 2] [5, 0]) = some (2, 0, 0) ∧
    stopped (small [0x0C, 0, 1, 0x28] [1, 0]) = some (4, 40, 0) ∧
    after (small [0x0C, 0, 0, 0] [9]) 0 = some (1, 4, 0) := by decide
theorem test_pow : ∀ v ∈ ([(2, 10, 1024), (7, 0, 1), (0, 0, 1), (0, 5, 0), (-2, 3, -8), (-1, 2147483647, -1), (2, 31, -2147483648),
    (-2, 31, -2147483648), (2, 32, 0), (3, 20, -808182895), (3, 21, 1870418611), (10, 10, 1410065408)] : List (Int × Int × Int)),
    after (small [0x0D, 0, 1, 2] [v.1, v.2.1]) 2 = some (v.2.2, 4, 0) := by decide
theorem test_pow_faults : stopped (small [0x0D, 0, 1, 2] [2, -1]) = some (3, 0, 0) ∧
    stopped (small [0x0D, 0, 1, 2] [0, -5]) = some (3, 0, 0) := by decide
/-- The line after the table of section 2.2: rows marked "wraps" under OVERFLOW_MODE = FAULT; -2^31 is in range. -/
theorem test_overflow_faults : ∀ v ∈ ([(0x09, 2147483647, 1), (0x0A, 0, -2147483648), (0x0B, 65536, 65536), (0x0C, -2147483648, -1),
    (0x0D, 2, 31)] : List (Byte × Int × Int)),
    stopped (small [v.1, 0, 1, 2] [v.2.1, v.2.2] false faultMode) = some (7, 0, 0) := by decide
theorem test_overflow_not : after (small [0x0D, 0, 1, 2] [-2, 31] false faultMode) 2 = some (-2147483648, 4, 0) := by decide

theorem test_load : after (small [0x0E, 5, 0x7F, 0xFF] []) 5 = some (32767, 4, 0) ∧
    after (small [0x0E, 5, 0x80, 0x00] []) 5 = some (-32768, 4, 0) ∧ after (small [0x0E, 0x1F, 0xFF, 0xFF] []) 31 = some (-1, 4, 0) ∧
    after (small [0x0E, 0, 0x12, 0x34] []) 0 = some (4660, 4, 0) ∧ after (small [0x0E, 0, 0, 0] [77]) 0 = some (0, 4, 0) := by decide
theorem test_load_bad_register : stopped (small [0x0E, 0x20, 0, 1] []) = some (4, 32, 0) := by decide

theorem test_jmp : after (small [0x02, 0] [100]) 0 = some (100, 100, 0) ∧ after (small [0x02, 0] [0]) 0 = some (0, 0, 0) ∧
    stopped (small [0x02, 0] [-1]) = some (6, 0, 0) := by decide
theorem test_jmpf : ∀ v ∈ ([(0, 2), (4, 6), (-2, 0), (2147483647, 2147483649)] : List (Int × Nat)),
    after (small [0x03, 0] [v.1]) 0 = some (v.1, v.2, 0) := by decide
theorem test_jmpf_range : stopped (small [0x03, 0] [-3]) = some (6, 0, 0) ∧
    after (small [0x03, 0] [4] false selfBase) 0 = some (4, 4, 0) := by decide
theorem test_jmpb : ∀ v ∈ ([(2, 0), (0, 2), (-5, 7), (-2147483648, 2147483650)] : List (Int × Nat)),
    after (small [0x04, 0] [v.1]) 0 = some (v.1, v.2, 0) := by decide
theorem test_jmpb_range : stopped (small [0x04, 0] [3]) = some (6, 0, 0) := by decide
theorem test_jmpif : flagAfter (small [0x05, 0] [100] false) = some (false, 2) ∧
    flagAfter (small [0x05, 0] [100] true) = some (true, 100) ∧ flagAfter (small [0x05, 0] [-1] false) = some (false, 2) := by decide
theorem test_jmpif_faults : stopped (small [0x05, 0] [-1] true) = some (6, 0, 0) ∧
    stopped (small [0x05, 0xC8] [] false) = some (4, 200, 0) := by decide

/-- Section 2.5: the operands, then EQ, GT, GTE. -/
def compareRows : List (Int × Int × Bool × Bool × Bool) :=
  [(5, 5, true, false, true), (4, 0, false, true, true), (0, 4, false, false, false), (-1, 0, false, false, false),
    (0, -1, false, true, true), (2147483647, -2147483648, false, true, true), (-2147483648, 2147483647, false, false, false),
    (-2147483648, -2147483648, true, false, true)]
theorem test_eq : ∀ v ∈ compareRows, ∀ c : Bool, flagAfter (small [0x06, 0, 1] [v.1, v.2.1] c) = some (v.2.2.1, 3) := by decide
theorem test_gt : ∀ v ∈ compareRows, ∀ c : Bool, flagAfter (small [0x07, 0, 1] [v.1, v.2.1] c) = some (v.2.2.2.1, 3) := by decide
theorem test_gte : ∀ v ∈ compareRows, ∀ c : Bool, flagAfter (small [0x08, 0, 1] [v.1, v.2.1] c) = some (v.2.2.2.2, 3) := by decide
theorem test_not : ∀ c : Bool, flagAfter (small [0x01] [] c) = some (!c, 1) := by decide

theorem test_halt : stopped (small [0x00, 0x0E, 0, 0, 1] []) = some (0, 0, 1) := by decide
theorem test_exhausted : stopped (small [] []) = some (0, 0, 0) ∧ stopped (high 4294967295 [] []) = some (0, 0, 4294967295) := by
  decide
theorem test_illegal : stopped (small [0x0F] []) = some (1, 15, 0) ∧ stopped (small [0xFF] []) = some (1, 255, 0) := by decide
theorem test_fetch_overrun : ∀ bs ∈ ([[0x09, 0, 1], [0x0E], [0x02], [0x06, 0], [0x09, 0x28]] : List (List Byte)),
    stopped (small bs []) = some (5, 0, 0) := by decide
theorem test_register_index : stopped (small [0x09, 0, 1, 0x20] []) = some (4, 32, 0) ∧
    stopped (small [0x09, 0x21, 0x22, 0x23] []) = some (4, 33, 0) ∧ after (small [0x0E, 0, 0, 0x0F] []) 0 = some (15, 4, 0) := by
  decide

/-! ### The host's operations, and the assembly text -/

/-- Rules R31, R122: bytes from offset 0, `L` their number. -/
theorem test_install : (install .spec [0x01, 0x00, 0x05]).map (fun s => (s.prog, s.progLen.toNat)) =
    some ([(0, 1), (2, 5)], 3) := by decide
/-- Rules R60 to R64, by hand. -/
theorem test_lines_rejected : parseLine ['F', 'O', 'O'] = .error .unknownMnemonic ∧
    parseLine ['J', 'M', 'P'] = .error .badOperands ∧ parseLine ['H', 'A', 'L', 'T', ' ', '$', '1'] = .error .badOperands ∧
    parseLine ['J', 'M', 'P', ' ', '$', '2', '5', '6'] = .error .operandOutOfField := by decide
/-- S8 and rule R60: a text with a blank line and surrounding white space. -/
theorem test_text : assemble ['\n', ' ', 'E', 'Q', ' ', '$', '0', ' ', '$', '2', ' ', '\n', 'N', 'O', 'T', '\n'] = some [.eq 0 2, .not] ∧
    assemble ['N', 'O', 'T', '\n', 'B', 'A', 'D'] = none := by decide
/-- S9, the first and last instructions: no padding between them (R32). -/
theorem test_encode_all : encodeAll .spec [.load 0 2, .sub 0 1 0] = some [0x0E, 0, 0, 2, 0x0A, 0, 1, 0] := by decide

/-! ### Witnesses: the hypotheses of each obligation are met together -/

theorem witness_InstallPlacesTheProgram : Params.spec.wf = true ∧ ([0x01, 0x00] : List Byte).length ≤ 4294967295 := by decide
theorem witness_InstallPlacesTheProgram_largest : (List.replicate 4294967295 (1 : Byte)).length ≤ 4294967295 := by
  rw [List.length_replicate]
theorem witness_EmptyProgramHaltsAtOnce : (small [] [5] true).progLen = 0 := by decide
theorem witness_ResetPutsEveryRegister : ∃ s t, t = applyReset s ∧ s ≠ t :=
  ⟨small [0x00] [5] true, _, rfl, by decide⟩
theorem witness_InstalledMeetsInvariant : ∃ s, install faultMode [0x01, 0x00, 0x05] = some s := ⟨_, rfl⟩
theorem witness_StepKeepsInvariant_running : ∃ t, (small [0x01] []).Inv ∧ step (small [0x01] []) = .next t :=
  ⟨_, by decide, rfl⟩
theorem witness_StepKeepsInvariant_faults : ∃ t, (small [0x02, 0x20] []).Inv ∧ step (small [0x02, 0x20] []) = .next t ∧
    t.faultCause = 4 := ⟨_, by decide, rfl, rfl⟩
theorem witness_StepKeepsInvariant_overflows : ∃ t, (small [0x09, 0, 0, 0] [2147483647] false faultMode).Inv ∧
    step (small [0x09, 0, 0, 0] [2147483647] false faultMode) = .next t ∧ t.faultCause = 7 :=
  ⟨_, by decide, rfl, rfl⟩
theorem witness_DecodeOpcodeRule : Params.spec.wf = true ∧ relativeOnly.wf = true ∧ jumpifOnly.wf = true := by decide
theorem witness_JumpSetRule : OpcodeMap.spec.wf = true ∧ Opcode.jmp ≠ .jmpif ∧ Opcode.jmpif ≠ .jmpf ∧ Opcode.jmpif ≠ .jmpb := by
  decide
theorem witness_EncodeIsInverseOfDecode : Params.spec.wf = true ∧ (Instr.load 255 0x8000).representable .spec = true ∧
    decodeOpcode .spec 0x0E = some .load ∧ ([255, 0x80, 0x00] : List Byte).length = Opcode.load.operandBytes := by decide
theorem witness_DecodeTakesExactlyOneInstruction : decodeOpcode .spec 0x0F = none ∧ decodeOpcode .spec 0x09 = some .add ∧
    ([0, 1] : List Byte).length < Opcode.add.operandBytes ∧ Opcode.add.operandBytes ≤ ([0, 1, 2] : List Byte).length := by decide
theorem witness_HaltedIsAbsorbing : (halt State.reset).runState = .halted := by decide
theorem witness_ExhaustionHalts : ∀ s ∈ [small [] [], high 4294967295 [] [], { small [0x00] [] with pc := 4294967295 }],
    s.runState = .running ∧ s.progLen.toNat ≤ s.pc.toNat := by decide
theorem witness_OperandFetchRule_overrun : memRead (small [0x09, 0, 1] []) 0 = some 0x09 ∧
    decodeOpcode .spec 0x09 = some .add ∧ (small [0x09, 0, 1] []).progLen.toNat < 0 + 1 + Opcode.add.operandBytes := by decide
theorem witness_OperandFetchRule_fits : memRead (small [0x09, 0, 1, 2] []) 0 = some 0x09 ∧
    decodeOpcode .spec 0x09 = some .add ∧ 0 + 1 + Opcode.add.operandBytes ≤ (small [0x09, 0, 1, 2] []).progLen.toNat := by decide
theorem witness_StepRunsTheDecodedInstruction : (small [0x0E, 0, 0x12, 0x34, 0x29] []).runState = .running ∧
    memReadBytes (small [0x0E, 0, 0x12, 0x34, 0x29] []) 0 4 = some [0x0E, 0, 0x12, 0x34] ∧
    decode .spec [0x0E, 0, 0x12, 0x34] = .ok (.load 0 0x1234, []) := by decide
theorem witness_StepRunsTheDecodedInstruction_illegal : memReadBytes (small [0x29, 0, 1] []) 0 2 = some [0x29, 0] ∧
    decode .spec [0x29, 0] = .ok (.illegal 0x29, [0]) := by decide
theorem witness_MemoryIsNeverWritten : ∃ t u, exec (.add 0 1 2) (small [0x01] [5, 7]) = .next t ∧
    step (small [0x01] [5, 7]) = .next u := ⟨_, _, rfl, rfl⟩

/-- A running core without a fault, whose step gives `fault_cause` `c`. -/
abbrev runsTo (s : State) (c : BitVec 8) : Prop :=
  s.runState = .running ∧ s.faultCause = 0 ∧ (nextOf (step s)).map (fun t => t.faultCause) = some c

theorem witness_HaltsInExactlyThreeWays : runsTo (small [] []) 0 ∧ runsTo (small [0x00] []) 0 ∧ runsTo (small [0x0F] []) 1 ∧
    runsTo (small [0x01] []) 0 := by decide
theorem witness_ProgramCounterNeverWraps_top : runsTo (high 4294967291 [0x0E, 0, 0, 1] []) 0 ∧
    fetch (high 4294967291 [0x0E, 0, 0, 1] []) = .instr (.load 0 1) ∧
    after (high 4294967291 [0x0E, 0, 0, 1] []) 0 = some (1, 4294967295, 0) := by decide
theorem witness_ProgramCounterNeverWraps_taken : runsTo (high 2147483646 [0x03, 0] [2147483647]) 0 ∧
    fetch (high 2147483646 [0x03, 0] [2147483647]) = .instr (.jmpf 0) ∧
    takenTarget (high 2147483646 [0x03, 0] [2147483647]) (.jmpf 0) = some 4294967295 := by decide
theorem witness_FaultsArePrecise : runsTo (small [0x0F] []) 1 ∧ runsTo (small [0x0C, 0, 1, 2] [5, 0]) 2 ∧
    runsTo (small [0x0D, 0, 1, 2] [2, -1]) 3 ∧ runsTo (small [0x05, 0x20] []) 4 ∧ runsTo (small [0x0E, 0, 0] []) 5 ∧
    runsTo (small [0x04, 0] [3]) 6 ∧ runsTo (small [0x0A, 0, 1, 2] [0, -2147483648] false faultMode) 7 := by decide
theorem witness_FaultsExactlyAsTabled_opcode : runsTo (small [0x0F] []) 1 ∧ faultReason (small [0x0F] []) 1 15 :=
  ⟨by decide, .inl ⟨rfl, 0x0F, by decide⟩⟩
theorem witness_FaultsExactlyAsTabled_divide : faultReason (small [0x0C, 0, 1, 2] [5, 0]) 2 0 :=
  .inr (.inl ⟨rfl, rfl, 0, 1, 2, by decide⟩)
theorem witness_FaultsExactlyAsTabled_exponent : faultReason (small [0x0D, 0, 1, 2] [2, -1]) 3 0 :=
  .inr (.inr (.inl ⟨rfl, rfl, 0, 1, 2, by decide⟩))
theorem witness_FaultsExactlyAsTabled_index : faultReason (small [0x05, 0x20] []) 4 32 :=
  .inr (.inr (.inr (.inl ⟨rfl, .jmpif 0x20, 0x20, by decide⟩)))
theorem witness_FaultsExactlyAsTabled_overrun : faultReason (small [0x0E, 0, 0] []) 5 0 :=
  .inr (.inr (.inr (.inr (.inl ⟨rfl, rfl, 0x0E, .load, by decide⟩))))
theorem witness_FaultsExactlyAsTabled_target : faultReason (small [0x04, 0] [3]) 6 0 :=
  .inr (.inr (.inr (.inr (.inr (.inl ⟨rfl, rfl, .jmpb 0, -1, by decide⟩)))))
theorem witness_FaultsExactlyAsTabled_overflow :
    faultReason (small [0x0A, 0, 1, 2] [0, -2147483648] false faultMode) 7 0 :=
  .inr (.inr (.inr (.inr (.inr (.inr ⟨rfl, rfl, by decide, .sub 0 1 2, 2147483648, by unfold inRange32; decide⟩)))))
theorem witness_RegisterIndexIsChecked : firstBad (regBytes (.add 31 32 255)) = some 32 ∧
    firstBad (regBytes (.load 0xFF 0)) = some 0xFF ∧ firstBad (regBytes (.add 31 31 31)) = none := by decide
theorem witness_RunIsRepeatedStep_step : ∃ t, (small [0x01, 0x00] []).runState = .running ∧
    step (small [0x01, 0x00] []) = .next t ∧ t.runState = .running ∧ t.pc = 1 := ⟨_, rfl, rfl, rfl, rfl⟩
theorem witness_RunIsRepeatedStep_halted : (halt (small [0x01, 0x00] [])).runState = .halted := by decide
theorem witness_RunIsRepeatedStep : ∃ t, runFor 1 (small [0x01, 0x00] []) = .next t ∧ t.runState = .running := ⟨_, rfl, rfl⟩
theorem witness_RunsNeverGetStuck : (small [0x0F] []).Inv ∧ (small [0x01, 0x01] [] true jumpifOnly).Inv := by decide

/-- The hypotheses of the clauses of ADD, SUB and MUL: a bad index; two results at the ends of the range and one just beyond each
end, the last two in either mode. -/
theorem witness_AddRule : firstBad [0, 32, 2] = some 32 ∧ faultMode.overflowMode = .fault ∧ Params.spec.overflowMode = .wrap ∧
    inRange32 ((small [] [2147483646, 1]).x[0].toInt + (small [] [2147483646, 1]).x[1].toInt) ∧
    ¬ inRange32 ((small [] [2147483647, 1]).x[0].toInt + (small [] [2147483647, 1]).x[1].toInt) := by
  unfold inRange32; decide
theorem witness_SubRule : firstBad [31, 31, 255] = some 255 ∧
    inRange32 ((small [] [-2147483647, 1]).x[0].toInt - (small [] [-2147483647, 1]).x[1].toInt) ∧
    ¬ inRange32 ((small [] [-2147483648, 1]).x[0].toInt - (small [] [-2147483648, 1]).x[1].toInt) := by
  unfold inRange32; decide
theorem witness_MulRule : firstBad [33, 34, 35] = some 33 ∧
    inRange32 ((small [] [-65536, 32768]).x[0].toInt * (small [] [-65536, 32768]).x[1].toInt) ∧
    ¬ inRange32 ((small [] [65536, 32768]).x[0].toInt * (small [] [65536, 32768]).x[1].toInt) := by
  unfold inRange32; decide
/-- DIV: a zero divisor; a quotient at the end of the range; the one quotient beyond it. -/
theorem witness_DivRule : (small [] [5, 0]).x[1].toInt = 0 ∧ (small [] [-2147483648, 1]).x[1].toInt ≠ 0 ∧
    inRange32 ((small [] [-2147483648, 1]).x[0].toInt.tdiv (small [] [-2147483648, 1]).x[1].toInt) ∧
    ¬ inRange32 ((small [] [-2147483648, -1]).x[0].toInt.tdiv (small [] [-2147483648, -1]).x[1].toInt) := by
  unfold inRange32; decide
theorem witness_DivisionIdentity : (small [] [-7, 2]).params.overflowMode = .wrap ∧ (small [] [-7, 2]).x[1].toInt ≠ 0 := by decide
/-- POW: exponents -1 and 0; `(-2)^31` at the end of the range and `2^31` just beyond the other. -/
theorem witness_PowRule : (small [] [2, -1]).x[1].toInt < 0 ∧ 0 ≤ (small [] [0, 0]).x[1].toInt ∧ 0 ≤ (small [] [-2, 31]).x[1].toInt ∧
    inRange32 ((small [] [-2, 31]).x[0].toInt ^ (small [] [-2, 31]).x[1].toInt.toNat) ∧
    ¬ inRange32 ((small [] [2, 31]).x[0].toInt ^ (small [] [2, 31]).x[1].toInt.toNat) := by
  unfold inRange32; decide
theorem witness_PowIsRepeatedMultiplication : (small [] [3, 20]).params.overflowMode = .wrap ∧
    0 ≤ (small [] [3, 20]).x[1].toInt := by decide
theorem witness_NarrowingOfResults : inRange32 (-2147483648) ∧ inRange32 2147483647 ∧ ¬ inRange32 (-2147483649) ∧
    ¬ inRange32 2147483648 := by unfold inRange32; decide
theorem witness_LoadRule : 32 ≤ (32 : Byte).toNat ∧ (31 : Byte).toNat < 32 ∧ (0x7FFF : Half).toNat < 32768 ∧
    ¬ (0x8000 : Half).toNat < 32768 := by decide
theorem witness_LoadTakesBigEndianImmediate : memRead (small [0x0E, 31, 0x80, 0x01] []) 0 = some 0x0E ∧
    decodeOpcode .spec 0x0E = some .load ∧ memRead (small [0x0E, 31, 0x80, 0x01] []) 1 = some 31 ∧
    memRead2 (small [0x0E, 31, 0x80, 0x01] []) 2 = some 0x8001 := by decide

theorem witness_JmpRule : 32 ≤ (32 : Byte).toNat ∧ (small [] [-1]).x[0].toInt < 0 ∧ 0 ≤ (small [] [0]).x[0].toInt ∧
    0 ≤ (small [] [2147483647]).x[0].toInt := by decide
/-- The targets -1, 0, 2^32 - 1 and 2^32 of JMPF, from the bases `A + 2` and (the second) `A`. -/
theorem witness_JmpfRule : relBaseOf (high 0 [] [-3]) + (high 0 [] [-3]).x[0].toInt = -1 ∧
    relBaseOf (small [] [0] false selfBase) + (small [] [0] false selfBase).x[0].toInt = 0 ∧
    relBaseOf (high 2147483646 [] [2147483647]) + (high 2147483646 [] [2147483647]).x[0].toInt = 4294967295 ∧
    relBaseOf (high 2147483647 [] [2147483647]) + (high 2147483647 [] [2147483647]).x[0].toInt = 4294967296 := by decide
theorem witness_JmpbRule : relBaseOf (high 0 [] [3]) - (high 0 [] [3]).x[0].toInt = -1 ∧
    relBaseOf (small [] [0] false selfBase) - (small [] [0] false selfBase).x[0].toInt = 0 ∧
    relBaseOf (high 2147483645 [] [-2147483648]) - (high 2147483645 [] [-2147483648]).x[0].toInt = 4294967295 ∧
    relBaseOf (high 2147483646 [] [-2147483648]) - (high 2147483646 [] [-2147483648]).x[0].toInt = 4294967296 := by decide
theorem witness_JmpifRule : 32 ≤ (200 : Byte).toNat ∧ (small [] [-1] true).cmp = true ∧ (small [] [-1] true).x[0].toInt < 0 ∧
    (small [] [0] true).cmp = true ∧ 0 ≤ (small [] [0] true).x[0].toInt ∧ (small [] [-1] false).cmp = false := by decide
theorem witness_RelativeBase : (high 4294967293 [] [0]).x[0] = 0 ∧ (high 4294967293 [] [0]).pc.toNat + 2 ≤ 4294967295 ∧
    (high 4294967293 [] [0]).params.relBase = .next ∧ (small [] [0] false selfBase).x[0] = 0 ∧
    (small [] [0] false selfBase).params.relBase = .self := by decide
theorem witness_compare_rules : firstBad [31, 32] = some 32 ∧ (0 : Byte).toNat < 32 ∧ (31 : Byte).toNat < 32 := by decide
theorem witness_HaltRule : (small [0x01] []).runState = .running ∧ ({ small [0x01] [] with pc := 1 } : State).progLen.toNat ≤ 1 := by
  decide
theorem witness_IllegalRule : (small [0x0F] []).runState = .running ∧ memRead (small [0x0F] []) 0 = some 0x0F ∧
    decodeOpcode .spec 0x0F = none ∧ decodeOpcode jumpifOnly 0x03 = none := by decide

theorem witness_OnlyTheDestinationRegisterChanges : ∃ t, exec (.add 0 1 31) (small [] [5, 7]) = .next t ∧
    ∀ rd, destReg (.add 0 1 31) = some rd → rd.toNat ≠ (30 : Fin 32).val :=
  ⟨_, rfl, by intro rd h; cases h; decide⟩
theorem witness_RemainderIsWrittenByDivAndNeverRead : ∃ t u, exec (.mul 0 1 2) (small [] [5, 7]) = .next t ∧
    (Instr.mul 0 1 2).opcode ≠ some .div ∧ step (small [0x0C, 0, 1, 2] [7, 2]) = .next u :=
  ⟨_, _, rfl, by decide, rfl⟩
theorem witness_FlagIsWrittenAndReadByItsInstructions : ∃ t u, exec (.jmpif 0) (small [] [5] true) = .next t ∧
    exec (.gt 0 1) (small [] [5] true) = .next u ∧ (Instr.jmpif 0).opcode ≠ some .not ∧ (Instr.gt 0 1).opcode ≠ some .jmpif :=
  ⟨_, _, rfl, rfl, by decide⟩
theorem witness_FaultStatusIsNeverRead : ∃ t, step (small [0x0F] []) = .next t := ⟨_, rfl⟩

theorem witness_LinesAreReadBack : (Instr.load 255 0x8000).opcode.isSome = true := by decide
theorem witness_LongestMnemonicWins :
    parseMnemonic ['J', 'M', 'P', 'I', 'F', ' ', '$', '0'] = some (.jmpif, [' ', '$', '0']) ∧
    parseMnemonic ['G', 'T', 'E'] = some (.gte, []) := by decide
/-- A line with white space around it, a blank line, a bare one. -/
def goodLines : List SourceLine :=
  [⟨[' '], ['N', 'O', 'T'], ['\t', '\r']⟩, ⟨[' '], [], []⟩, ⟨[], ['E', 'Q', ' ', '$', '0', ' ', '$', '2'], []⟩]
/-- The same with a line that is no instruction. -/
def badLines : List SourceLine := goodLines ++ [⟨[], ['B', 'A', 'D'], []⟩]
theorem goodLines_ok : ∀ l ∈ goodLines, l.ok := by
  simp [goodLines, SourceLine.ok, whiteSpace]
  refine ⟨?_, ?_⟩ <;> rintro c (rfl | rfl) <;> decide
theorem badLines_ok : ∀ l ∈ badLines, l.ok := by
  simp [badLines, goodLines, SourceLine.ok, whiteSpace]
  refine ⟨?_, ?_, ?_⟩ <;> rintro c (rfl | rfl) <;> decide
theorem witness_AssemblyIsAllOrNothing_all : goodLines ≠ [] ∧ (∀ l ∈ goodLines, l.ok) ∧
    (goodLines.filter (fun l => !l.content.isEmpty)).map (fun l => parseLine l.content) =
      [Instr.not, .eq 0 2].map Except.ok := ⟨by decide, goodLines_ok, by decide⟩
theorem witness_AssemblyIsAllOrNothing_nothing : badLines ≠ [] ∧ (∀ l ∈ badLines, l.ok) ∧
    ∃ l ∈ badLines, l.content ≠ [] ∧ ∀ i, parseLine l.content ≠ .ok i :=
  ⟨by decide, badLines_ok, _, List.mem_append_right _ (List.mem_singleton.2 rfl), by decide,
    fun i h => by
      have : parseLine ['B', 'A', 'D'] = .error .unknownMnemonic := by decide
      rw [this] at h
      cases h⟩

end Sys2Proof.Tests
end

section
/-! O35: narrowing, from the laws of `arith32` in each mode. -/

namespace Sys2Proof.Proofs

open Sys2Proof.Machine Sys2Proof.Claims Sys2Proof.Laws

/-- The model's range test and the range of the statements are the same (rule R7). -/
theorem fits32_iff_inRange32 {v : Int} : fits32 v = true ↔ inRange32 v := fits32_iff

theorem fits32_eq_false_iff_not_inRange32 {v : Int} : fits32 v = false ↔ ¬ inRange32 v := by
  rw [← fits32_iff_inRange32, Bool.not_eq_true]

/-- The word of an integer is the integer modulo `2^32`, as `wrap32` of rule R7 asks. -/
theorem dvd_toInt_ofInt_sub (v : Int) : (4294967296 : Int) ∣ (BitVec.ofInt 32 v).toInt - v := by
  rw [BitVec.toInt_ofInt]
  exact Int.dvd_bmod_sub_self

theorem arith32_of_inRange32 (mode : OverflowMode) {v : Int} (h : inRange32 v) :
    ∃ w, arith32 mode v = some w ∧ w.toInt = v :=
  have hfits := fits32_iff_inRange32.2 h
  ⟨BitVec.ofInt 32 v, arith32_of_fits32 mode hfits, toInt_ofInt_of_fits32 hfits⟩

theorem arith32_fault_of_not_inRange32 {v : Int} (h : ¬ inRange32 v) : arith32 .fault v = none :=
  arith32_fault_of_not_fits32 (fits32_eq_false_iff_not_inRange32.2 h)

/-- Settles O35: it holds. In range the word has the value itself, out of range FAULT gives none, and WRAP keeps the value
modulo `2^32`. -/
theorem narrowingOfResults : Obligations.NarrowingOfResults :=
  ⟨fun mode _ h => arith32_of_inRange32 mode h,
   fun _ h => arith32_fault_of_not_inRange32 h,
   fun v => ⟨BitVec.ofInt 32 v, arith32_wrap v, dvd_toInt_ofInt_sub v⟩⟩

end Sys2Proof.Proofs
end

section
/-! What executing an instruction can do, once: it always answers a next state, which either completes the instruction or raises
a fault of the table of R101. -/

namespace Sys2Proof.Proofs

open Sys2Proof.Machine Sys2Proof.Claims Sys2Proof.Laws

/-- The datum the table of rule R101 gives a fault raised in `s`; ArithmeticOverflow is raised under OVERFLOW_MODE = FAULT alone. -/
def FaultFits (s : State) (info : BitVec 32) : Cause → Prop
  | .illegalOpcode => info.toNat < 256
  | .registerIndexRange => 32 ≤ info.toNat ∧ info.toNat < 256
  | .arithmeticOverflow => info = 0 ∧ s.params.overflowMode = .fault
  | .divideByZero | .negativeExponent | .fetchOverrun | .pcRange => info = 0

/-- `t` is `s` after a fault that fits the table (rules R101, R103). -/
def Faults (s t : State) : Prop := ∃ c info, FaultFits s info c ∧ t = raiseFault s c info

/-- The instructions that write `cmp` (rule R16). -/
abbrev flagWriters : List (Option Opcode) := [some .eq, some .gt, some .gte, some .not]

/-- `t` follows `s` by the instruction `i` without a fault: where `pc` goes, and what `i` leaves as it was. -/
structure Completes (i : Instr) (s t : State) : Prop where
  /-- ILLEGAL never completes; any other instruction goes on past its bytes unless it is a taken jump (R14). -/
  sequential : ∃ k, i.opcode = some k ∧
    (takenTarget s i = none → t.pc = s.pc + BitVec.ofNat 32 (1 + k.operandBytes))
  /-- A taken jump goes to its mathematical target (R83). -/
  taken : ∀ a, takenTarget s i = some a → (t.pc.toNat : Int) = a
  /-- HALT halts (R96). -/
  halts : i = .halt → t.runState = .halted
  /-- Nothing else halts without a fault (R18). -/
  runs : i ≠ .halt → t.runState = s.runState := by intros; rfl
  x : ∀ j : Fin 32, (∀ rd, destReg i = some rd → rd.toNat ≠ j.val) → t.x[j] = s.x[j] := by intros; rfl
  remainder : i.opcode ≠ some .div → t.remainder = s.remainder := by intros; rfl
  cmp : i.opcode ∉ flagWriters → t.cmp = s.cmp := by intros; rfl
  faultCause : t.faultCause = s.faultCause := by rfl
  faultInfo : t.faultInfo = s.faultInfo := by rfl
  prog : t.prog = s.prog := by rfl
  progLen : t.progLen = s.progLen := by rfl
  params : t.params = s.params := by rfl

/-- An answer the model may give to executing `i` in `s`. -/
def Answers (i : Instr) (s : State) (r : Result) : Prop := ∃ t, r = .next t ∧ (Completes i s t ∨ Faults s t)

variable {i : Instr} {s : State}

theorem Completes.answers {t : State} (h : Completes i s t) : Answers i s (.next t) := ⟨t, rfl, .inl h⟩

theorem answers_raiseFault {c : Cause} {info : BitVec 32} (h : FaultFits s info c) :
    Answers i s (.next (raiseFault s c info)) := ⟨_, rfl, .inr ⟨c, info, h, rfl⟩⟩

theorem byte_datum_lt (b : Byte) : (b.setWidth 32).toNat < 256 := by
  rw [BitVec.toNat_setWidth_of_le (by omega)]
  exact b.isLt

theorem index_datum_ge {b : Byte} (h : 32 ≤ b.toNat) : 32 ≤ (b.setWidth 32).toNat := by
  rwa [BitVec.toNat_setWidth_of_le (by omega)]

/-! ### The shared operand forms -/

theorem withReg_answers {b : Byte} {k : RegIdx → Result} (hk : ∀ h : b.toNat < 32, Answers i s (k ⟨b.toNat, h⟩)) :
    Answers i s (withReg s b k) := by
  rcases Nat.lt_or_ge b.toNat 32 with h | h
  · rw [withReg_of_lt h]
    exact hk h
  · rw [withReg_of_ge h]
    exact answers_raiseFault ⟨index_datum_ge h, byte_datum_lt b⟩

theorem withRRR_answers {r1 r2 rd : Byte} {k : Word → Word → RegIdx → Result}
    (hk : ∀ (a b : Word) (hd : rd.toNat < 32), Answers i s (k a b ⟨rd.toNat, hd⟩)) : Answers i s (withRRR r1 r2 rd s k) :=
  withReg_answers fun _ => withReg_answers fun _ => withReg_answers fun hd => hk _ _ hd

/-- An instruction of four bytes that writes its destination register and goes on completes (rules R70, R80). -/
theorem completes_writeReg {rd : Byte} {k : Opcode} (hdest : destReg i = some rd) (hk : i.opcode = some k)
    (hlen : k.operandBytes = 3) (hseq : takenTarget s i = none) (hd : rd.toNat < 32) (w : Word) :
    Completes i s (advance (writeReg s ⟨rd.toNat, hd⟩ w) 4) where
  sequential := ⟨k, hk, fun _ => by rw [hlen]; rfl⟩
  taken a h := by simp [hseq] at h
  halts h := by simp [h, destReg] at hdest
  x j hj := by simp [Vector.getElem_set_ne, hj rd hdest]

theorem writeResult_answers {rd : Byte} {k : Opcode} {result : Option Word} (hdest : destReg i = some rd)
    (hk : i.opcode = some k) (hlen : k.operandBytes = 3) (hseq : takenTarget s i = none) (hd : rd.toNat < 32)
    (hnone : result = none → s.params.overflowMode = .fault) : Answers i s (writeResult s ⟨rd.toNat, hd⟩ result) := by
  cases result with
  | none => exact answers_raiseFault ⟨rfl, hnone rfl⟩
  | some w => exact (completes_writeReg hdest hk hlen hseq hd w).answers

/-- Narrowing gives no value under OVERFLOW_MODE = FAULT alone (rule R76). -/
theorem mode_of_arith32_none {mode : OverflowMode} {v : Int} (h : arith32 mode v = none) : mode = .fault := by
  rcases arith32_cases mode v with ⟨-, hmode, -⟩ | ⟨hsome, -⟩
  · exact hmode
  · simp [hsome] at h

/-- ADD, SUB and MUL: narrow an integer result of the two sources and write it. -/
theorem arith_answers {r1 r2 rd : Byte} {k : Opcode} (f : Int → Int → Int) (hdest : destReg i = some rd)
    (hk : i.opcode = some k) (hlen : k.operandBytes = 3) (hseq : takenTarget s i = none) :
    Answers i s (withRRR r1 r2 rd s fun a b d => writeResult s d (arith32 s.params.overflowMode (f a.toInt b.toInt))) :=
  withRRR_answers fun _ _ hd => writeResult_answers hdest hk hlen hseq hd mode_of_arith32_none

/-- An exponent register that is not negative has 31 bits, so POW is the exact power narrowed once (rule R75). -/
theorem pow32_exponent (mode : OverflowMode) (a e : Word) :
    pow32 mode a 31 e.toInt.toNat = arith32 mode (a.toInt ^ e.toInt.toNat) :=
  pow32_eq_arith32 mode a 31 _ (by have := BitVec.toInt_lt (x := e); omega)

theorem execDiv_answers (r1 r2 rd : Byte) : Answers (.div r1 r2 rd) s (execDiv r1 r2 rd s) :=
  withRRR_answers fun a b hd => by
    split
    · exact answers_raiseFault rfl
    · split
      · next hnone => exact answers_raiseFault ⟨rfl, mode_of_arith32_none hnone⟩
      · next q _ =>
        have h := completes_writeReg (i := .div r1 r2 rd) (s := s) rfl rfl rfl rfl hd q
        exact Completes.answers { h with remainder := fun hne => absurd rfl hne }

theorem execPow_answers (r1 r2 rd : Byte) : Answers (.pow r1 r2 rd) s (execPow r1 r2 rd s) :=
  withRRR_answers fun a e hd => by
    split
    · exact answers_raiseFault rfl
    · rw [pow32_exponent]
      exact writeResult_answers rfl rfl rfl rfl hd mode_of_arith32_none

theorem compareWith_answers {k : Opcode} (test : Word → Word → Bool) (r1 r2 : Byte) (hk : i.opcode = some k)
    (hlen : k.operandBytes = 2) (hflag : some k ∈ flagWriters) (hseq : takenTarget s i = none) :
    Answers i s (compareWith test r1 r2 s) :=
  withReg_answers fun _ => withReg_answers fun _ => Completes.answers
    { sequential := ⟨k, hk, fun _ => by rw [hlen]; rfl⟩
      taken := fun a h => by simp [hseq] at h
      halts := fun h => by subst h; cases hk; cases hlen
      cmp := fun h => absurd (hk ▸ hflag) h }

/-! ### Jumps -/

@[simp] theorem regValue_of_lt {b : Byte} (h : b.toNat < 32) : regValue s b = (readReg s ⟨b.toNat, h⟩).toInt := dif_pos h

/-- The base of a relative jump in the model is that of the statements (rule R89). -/
theorem jumpBase_eq_relBaseOf : jumpBase s = relBaseOf s := by
  unfold jumpBase relBaseOf
  cases s.params.relBase <;> simp

theorem toNat_ofInt_of_range {a : Int} (h0 : 0 ≤ a) (h1 : a ≤ 4294967295) : ((BitVec.ofInt 32 a).toNat : Int) = a := by
  rw [BitVec.toNat_ofInt]
  omega

theorem jumpTo_answers {k : Opcode} {a : Int} (hk : i.opcode = some k) (htaken : takenTarget s i = some a) :
    Answers i s (jumpTo s a) := by
  by_cases h : a < 0 ∨ 4294967295 < a
  · rw [jumpTo_out_of_range s h]
    exact answers_raiseFault rfl
  · rw [jumpTo_in_range s (by omega) (by omega)]
    exact Completes.answers
      { sequential := ⟨k, hk, fun hnone => by simp [hnone] at htaken⟩
        taken := fun b hb => by
          obtain rfl : a = b := Option.some.inj (htaken.symm.trans hb)
          exact toNat_ofInt_of_range (by omega) (by omega)
        halts := fun hi => by simp [hi, takenTarget] at htaken }

theorem execJmpif_answers (r : Byte) : Answers (.jmpif r) s (execJmpif r s) :=
  withReg_answers fun hr => by
    cases hc : s.cmp with
    | true => exact jumpTo_answers rfl (by simp [takenTarget, hc, hr])
    | false =>
      exact Completes.answers
        { sequential := ⟨.jmpif, rfl, fun _ => rfl⟩
          taken := fun a h => by simp [takenTarget, hc] at h
          halts := nofun }

/-! ### All instructions -/

/-- Everything an instruction can do: it completes, or it raises a fault of the table. -/
theorem exec_answers (s : State) : ∀ i : Instr, Answers i s (exec i s)
  | .halt => Completes.answers
      { sequential := ⟨.halt, rfl, fun _ => rfl⟩, taken := nofun, halts := fun _ => rfl, runs := fun h => absurd rfl h }
  | .not => Completes.answers
      { sequential := ⟨.not, rfl, fun _ => rfl⟩, taken := nofun, halts := nofun, cmp := fun h => absurd (by decide) h }
  | .jmp r => withReg_answers fun hr => jumpTo_answers rfl (by simp [takenTarget, hr])
  | .jmpf r => withReg_answers fun hr => jumpTo_answers rfl (by simp [takenTarget, hr, jumpBase_eq_relBaseOf])
  | .jmpb r => withReg_answers fun hr => jumpTo_answers rfl (by simp [takenTarget, hr, jumpBase_eq_relBaseOf])
  | .jmpif r => execJmpif_answers r
  | .eq r1 r2 => compareWith_answers cmpEq r1 r2 rfl rfl (by decide) rfl
  | .gt r1 r2 => compareWith_answers cmpGt r1 r2 rfl rfl (by decide) rfl
  | .gte r1 r2 => compareWith_answers cmpGte r1 r2 rfl rfl (by decide) rfl
  | .add _ _ _ => arith_answers (fun a b => a + b) rfl rfl rfl rfl
  | .sub _ _ _ => arith_answers (fun a b => a - b) rfl rfl rfl rfl
  | .mul _ _ _ => arith_answers (fun a b => a * b) rfl rfl rfl rfl
  | .div r1 r2 rd => execDiv_answers r1 r2 rd
  | .pow r1 r2 rd => execPow_answers r1 r2 rd
  | .load _ v => withReg_answers fun hr => (completes_writeReg rfl rfl rfl rfl hr (immValue v)).answers
  | .illegal op => answers_raiseFault (byte_datum_lt op)

/-- The inversion of `exec`: its next state completes the instruction or carries a fault of the table. -/
theorem exec_next {t : State} (h : exec i s = .next t) : Completes i s t ∨ Faults s t := by
  obtain ⟨u, hu, hcases⟩ := exec_answers s i
  obtain rfl : u = t := by simpa [hu] using h
  exact hcases

end Sys2Proof.Proofs
end

section
/-! What a step can do, once (rules R18, R22), and from it the invariant and the safety statements O7, O19, O21, O22. -/

namespace Sys2Proof.Proofs

open Sys2Proof.Machine Sys2Proof.Claims Sys2Proof.Laws

variable {s t : State}

theorem step_of_halted (h : s.runState = .halted) : step s = .next s := by
  simp [step, h]

theorem step_of_exhausted (h : s.runState = .running) (hL : s.progLen.toNat ≤ s.pc.toNat) : step s = .next (halt s) := by
  simp [step, fetch, h, hL]

theorem step_of_overrun (h : s.runState = .running) (hf : fetch s = .overrun) :
    step s = .next (raiseFault s .fetchOverrun 0) := by
  simp [step, h, hf]

theorem step_of_instr {i : Instr} (h : s.runState = .running) (hf : fetch s = .instr i) : step s = exec i s := by
  simp [step, h, hf]

/-- What a step of a running core can do: halt by exhaustion, raise a fault at an address below `L`, or complete the fetched
instruction. -/
inductive StepRule (s t : State) : Prop where
  | exhausted (hL : s.progLen.toNat ≤ s.pc.toNat) (ht : t = halt s)
  | faults (hL : s.pc.toNat < s.progLen.toNat) (ht : Faults s t)
  | completes (hL : s.pc.toNat < s.progLen.toNat) (i : Instr) (hf : fetch s = .instr i) (ht : Completes i s t)

theorem stepRule_of_instr {i : Instr} (h : s.runState = .running) (hL : s.pc.toNat < s.progLen.toNat)
    (hf : fetch s = .instr i) : ∃ t, step s = .next t ∧ StepRule s t := by
  obtain ⟨t, ht, hc | hc⟩ := exec_answers s i
  · exact ⟨t, (step_of_instr h hf).trans ht, .completes hL i hf hc⟩
  · exact ⟨t, (step_of_instr h hf).trans ht, .faults hL hc⟩

theorem step_running (h : s.runState = .running) : ∃ t, step s = .next t ∧ StepRule s t := by
  rcases fetch_cases s with ⟨hL, -⟩ | ⟨hL, ⟨-, hf⟩ | ⟨k, -, ⟨-, hf⟩ | ⟨-, i, -, hf⟩⟩⟩
  · exact ⟨_, step_of_exhausted h hL, .exhausted hL rfl⟩
  · exact stepRule_of_instr h hL hf
  · exact ⟨_, step_of_overrun h hf, .faults hL ⟨.fetchOverrun, 0, rfl, rfl⟩⟩
  · exact stepRule_of_instr h hL hf

/-- The inversion of `step` in a running core. -/
theorem stepRule_of_step (h : s.runState = .running) (hs : step s = .next t) : StepRule s t := by
  obtain ⟨u, hu, hrule⟩ := step_running h
  obtain rfl : u = t := by simpa [hu] using hs
  exact hrule

/-- Settles O19: it holds, since fetching finds every byte it asks for and every instruction answers a next state. -/
theorem stepIsTotal : Obligations.StepIsTotal := fun s => by
  cases h : s.runState with
  | halted => exact ⟨s, step_of_halted h⟩
  | running =>
    obtain ⟨t, ht, -⟩ := step_running h
    exact ⟨t, ht⟩

/-! ### The invariant -/

theorem launchInv_of_same_launch (h : s.LaunchInv) (hprog : t.prog = s.prog) (hlen : t.progLen = s.progLen)
    (hparams : t.params = s.params) : t.LaunchInv := by
  unfold State.LaunchInv
  rwa [hprog, hlen, hparams]

/-- Without a cause and a datum the fault status is in order, in either run state. -/
theorem statusInv_of_no_fault (hc : s.faultCause = 0) (hi : s.faultInfo = 0) : s.StatusInv := by
  simp [State.StatusInv, hc, hi]

theorem no_fault_of_running (h : s.StatusInv) (hr : s.runState = .running) : s.faultCause = 0 ∧ s.faultInfo = 0 := by
  obtain ⟨hrun, -, -, -, -, hinfo, -⟩ := h
  have hc := hrun hr
  exact ⟨hc, hinfo (by simp [hc]) (by simp [hc])⟩

/-- A fault raised at an address below `L` with the datum of the table leaves the fault status in order. -/
theorem statusInv_of_faults (hL : s.pc.toNat < s.progLen.toNat) (h : Faults s t) : t.StatusInv := by
  obtain ⟨c, info, hfits, rfl⟩ := h
  cases c <;> simp_all [State.StatusInv, FaultFits, Cause.code]

/-- Settles O7: it holds. No step touches the launch data, and a step that raises no fault keeps the clear fault status. -/
theorem stepKeepsInvariant : Obligations.StepKeepsInvariant := by
  rintro s t ⟨hlaunch, hstatus⟩ hs
  cases hr : s.runState with
  | halted =>
    obtain rfl : s = t := by simpa [step_of_halted hr] using hs
    exact ⟨hlaunch, hstatus⟩
  | running =>
    obtain ⟨hc, hi⟩ := no_fault_of_running hstatus hr
    cases stepRule_of_step hr hs with
    | exhausted hL ht =>
      subst ht
      exact ⟨hlaunch, statusInv_of_no_fault hc hi⟩
    | faults hL ht =>
      refine ⟨?_, statusInv_of_faults hL ht⟩
      obtain ⟨c, info, -, rfl⟩ := ht
      exact hlaunch
    | completes hL i hf ht =>
      exact ⟨launchInv_of_same_launch hlaunch ht.prog ht.progLen ht.params,
        statusInv_of_no_fault (ht.faultCause.trans hc) (ht.faultInfo.trans hi)⟩

/-! ### Halting, and where `pc` goes -/

theorem faultCause_ne_zero_of_faults (h : Faults s t) : t.faultCause ≠ 0 := by
  obtain ⟨c, info, -, rfl⟩ := h
  cases c <;> simp [Cause.code]

theorem halted_of_faults (h : Faults s t) : t.runState = .halted := by
  obtain ⟨c, info, -, rfl⟩ := h
  rfl

theorem halted_iff_of_completes {i : Instr} (hr : s.runState = .running) (h : Completes i s t) :
    t.runState = .halted ↔ i = .halt := by
  refine ⟨fun ht => ?_, h.halts⟩
  by_contra hne
  simp [h.runs hne, hr] at ht

/-- Settles O21: it holds, by the three things a step of a running core can do. -/
theorem haltsInExactlyThreeWays : Obligations.HaltsInExactlyThreeWays := by
  refine ⟨rfl, rfl, fun s t hr hc hs => ?_, fun s => step_of_halted⟩
  cases stepRule_of_step hr hs with
  | exhausted hL ht => simp [ht, hL]
  | faults hL ht => exact iff_of_true (halted_of_faults ht) (.inr (.inr (faultCause_ne_zero_of_faults ht)))
  | completes hL i hf ht => simp [halted_iff_of_completes hr ht, Nat.not_le.2 hL, hf, ht.faultCause, hc]

/-- A fetched instruction other than ILLEGAL lies below `L` with all its bytes (rule R34). -/
theorem fetched_below_progLen {i : Instr} {k : Opcode} (hf : fetch s = .instr i) (hk : i.opcode = some k) :
    s.pc.toNat + 1 + k.operandBytes ≤ s.progLen.toNat := by
  rcases fetch_cases s with ⟨-, h⟩ | ⟨-, ⟨-, h⟩ | ⟨k', -, ⟨-, h⟩ | ⟨hL, i', hk', h⟩⟩⟩
  · simp [hf] at h
  · obtain rfl : i = _ := by simpa [hf] using h
    cases hk
  · simp [hf] at h
  · obtain rfl : i = i' := by simpa [hf] using h
    obtain rfl : k' = k := Option.some.inj (hk'.symm.trans hk)
    exact hL

/-- Going on past bytes that lie below `L` does not wrap (rule R15). -/
theorem toNat_add_of_le_progLen {n : Nat} (h : s.pc.toNat + n ≤ s.progLen.toNat) :
    (s.pc + BitVec.ofNat 32 n).toNat = s.pc.toNat + n := by
  have := s.progLen.isLt
  rw [BitVec.toNat_add, BitVec.toNat_ofNat]
  omega

/-- Settles O22: it holds, since a fetched instruction lies below `L` and a jump out of range is a fault. -/
theorem programCounterNeverWraps : Obligations.ProgramCounterNeverWraps := by
  intro s t i hr _ hf hs hnofault
  rcases exec_next ((step_of_instr hr hf).symm.trans hs) with ht | ht
  · obtain ⟨k, hk, hseq⟩ := ht.sequential
    have hL := fetched_below_progLen hf hk
    refine ⟨k, hk, fun hnone => ?_, ht.taken⟩
    rw [hseq hnone, toNat_add_of_le_progLen (by omega)]
    exact ⟨rfl, by omega⟩
  · exact absurd hnofault (faultCause_ne_zero_of_faults ht)

end Sys2Proof.Proofs
end

section
/-! Reset, Halted, exhaustion and runs: O2, O3, O5, O15, O16, O26, O27. -/

namespace Sys2Proof.Proofs

open Sys2Proof.Machine Sys2Proof.Claims Sys2Proof.Laws

theorem runFor_of_halted {s : State} (h : s.runState = .halted) : ∀ n : Nat, runFor n s = .next s
  | 0 => rfl
  | _ + 1 => by simp [runFor, h]

theorem runFor_succ {s t : State} (h : step s = .next t) (n : Nat) : runFor (n + 1) s = runFor n t := by
  cases hr : s.runState with
  | running => simp [runFor, hr, h]
  | halted =>
    obtain rfl : s = t := by simpa [step_of_halted hr] using h
    rw [runFor_of_halted hr, runFor_of_halted hr]

/-- Running on from where a run stopped is one longer run. -/
theorem runFor_add (n : Nat) {t : State} : ∀ {m : Nat} {s : State}, runFor m s = .next t → runFor (m + n) s = runFor n t
  | 0, s, h => by
    obtain rfl : s = t := by simpa [runFor] using h
    rw [Nat.zero_add]
  | m + 1, s, h => by
    obtain ⟨u, hu⟩ := stepIsTotal s
    rw [runFor_succ hu] at h
    rw [Nat.succ_add, runFor_succ hu]
    exact runFor_add n h

/-- Settles O26: it holds, by induction on the bound of the first run. -/
theorem runIsRepeatedStep : Obligations.RunIsRepeatedStep :=
  ⟨fun _ => rfl, fun n _ h => runFor_of_halted h n, fun n _ _ _ h => runFor_succ h n, fun _ n _ _ h => runFor_add n h⟩

/-- Settles O27: it holds, by induction on the bound: a step exists and keeps the invariant. -/
theorem runsNeverGetStuck : Obligations.RunsNeverGetStuck := by
  intro n
  induction n with
  | zero => exact fun s hs => ⟨s, rfl, hs⟩
  | succ n ih =>
    intro s hs
    obtain ⟨u, hu⟩ := stepIsTotal s
    rw [runFor_succ hu]
    exact ih u (stepKeepsInvariant s u hs hu)

/-- Settles O15: it holds, line 1 of the step and the same line of the run. -/
theorem haltedIsAbsorbing : Obligations.HaltedIsAbsorbing :=
  fun _ n h => ⟨step_of_halted h, runFor_of_halted h n⟩

/-- Settles O16: it holds, since the fetch unit tests `pc` against `L` first. -/
theorem exhaustionHalts : Obligations.ExhaustionHalts := fun _ => step_of_exhausted

/-- Settles O2: it holds, since reset takes these three fields from the state before. -/
theorem resetKeepsTheLaunch : Obligations.ResetKeepsTheLaunch :=
  fun _ => ⟨fun _ => rfl, rfl, rfl, rfl, rfl⟩

/-- Settles O3: it holds; the reset `pc` of 0 is at the end of an empty program. -/
theorem emptyProgramHaltsAtOnce : Obligations.EmptyProgramHaltsAtOnce := fun s h =>
  exhaustionHalts (applyReset s) rfl (by
    have hlen : (applyReset s).progLen = 0 := h
    simp [hlen])

/-- Settles O5: it holds; the reset state has an admitted launch and no fault. -/
theorem resetMeetsInvariant : Obligations.ResetMeetsInvariant :=
  ⟨by decide, statusInv_of_no_fault rfl rfl⟩

end Sys2Proof.Proofs
end

section
/-! O18: the bytes at `pc` decode to the instruction that the fetch unit finds. -/

namespace Sys2Proof.Proofs

open Sys2Proof.Machine Sys2Proof.Claims Sys2Proof.Laws

variable {s : State}

theorem memReadBytes_succ {n a : Nat} {bs : List Byte} (h : memReadBytes s a (n + 1) = some bs) :
    ∃ b bs', bs = b :: bs' ∧ memRead s a = some b ∧ memReadBytes s (a + 1) n = some bs' := by
  simp only [memReadBytes] at h
  split at h
  · next b bs' hb hbs => exact ⟨b, bs', (Option.some.inj h).symm, hb, hbs⟩
  · cases h

/-- Bytes that were read lie below `L`. -/
theorem add_le_progLen_of_memReadBytes : ∀ {n a : Nat} {bs : List Byte}, a ≤ s.progLen.toNat →
    memReadBytes s a n = some bs → a + n ≤ s.progLen.toNat
  | 0, _, _, ha, _ => ha
  | n + 1, a, bs, _, h => by
    obtain ⟨b, bs', -, hb, hbs⟩ := memReadBytes_succ h
    have := add_le_progLen_of_memReadBytes (memRead_eq_some hb) hbs
    omega

theorem fetch_of_illegal {op : Byte} (hop : memRead s s.pc.toNat = some op) (hd : decodeOpcode s.params op = none) :
    fetch s = .instr (.illegal op) := by
  simp [fetch, Nat.not_le.2 (memRead_eq_some hop), hop, hd]

theorem fetch_of_opcode {op : Byte} {k : Opcode} (hop : memRead s s.pc.toNat = some op)
    (hd : decodeOpcode s.params op = some k) : fetch s = fetchOperands s k := by
  simp [fetch, Nat.not_le.2 (memRead_eq_some hop), hop, hd]

/-- The operand fetch takes the operands that any longer string from `A + 1` begins with. -/
theorem fetchOperands_of_takeOperands {k : Opcode} {n : Nat} {bs rest : List Byte} {i : Instr}
    (hpc : s.pc.toNat < s.progLen.toNat) (hbs : memReadBytes s (s.pc.toNat + 1) n = some bs)
    (hi : takeOperands k bs = some (i, rest)) : fetchOperands s k = .instr i := by
  obtain ⟨hk, hsplit⟩ := takeOperands_some hi
  have hops := operands_length hk
  have hn : k.operandBytes ≤ n := by
    rw [← memReadBytes_length n hbs, hsplit, List.length_append, hops]
    omega
  have hL := add_le_progLen_of_memReadBytes hpc hbs
  have hread := memReadBytes_take k.operandBytes n hn hbs
  rw [hsplit, List.take_left' hops] at hread
  have htake : takeOperands k i.operands = some (i, []) := by simpa using takeOperands_operands hk []
  simp [fetchOperands, Nat.not_lt.2 (show s.pc.toNat + 1 + k.operandBytes ≤ s.progLen.toNat by omega), hread, htake]

theorem fetch_of_decode {n : Nat} {bs rest : List Byte} {i : Instr} (hbs : memReadBytes s s.pc.toNat n = some bs)
    (hi : decode s.params bs = .ok (i, rest)) : fetch s = .instr i := by
  cases n with
  | zero =>
    obtain rfl : [] = bs := Option.some.inj hbs
    cases hi
  | succ n =>
    obtain ⟨op, ops, rfl, hop, hops⟩ := memReadBytes_succ hbs
    cases hd : decodeOpcode s.params op with
    | none =>
      obtain ⟨rfl, -⟩ : Instr.illegal op = i ∧ ops = rest := by simpa [decode, hd] using hi
      exact fetch_of_illegal hop hd
    | some k =>
      cases htake : takeOperands k ops with
      | none => simp [decode, hd, htake] at hi
      | some d =>
        obtain rfl : d = (i, rest) := by simpa [decode, hd, htake] using hi
        rw [fetch_of_opcode hop hd]
        exact fetchOperands_of_takeOperands (memRead_eq_some hop) hops htake

/-- Settles O18: it holds, since the fetch unit finds the decoded instruction. -/
theorem stepRunsTheDecodedInstruction : Obligations.StepRunsTheDecodedInstruction :=
  fun _ _ _ _ _ hr hbs hi => step_of_instr hr (fetch_of_decode hbs hi)

end Sys2Proof.Proofs
end

section
/-! O25: the register check comes before everything else an instruction does (rule R11). -/

namespace Sys2Proof.Proofs

open Sys2Proof.Machine Sys2Proof.Claims Sys2Proof.Laws

variable {s : State} {b : Byte}

/-- The check of one more index byte: it is the first bad one, or the bytes after it hold the first bad one. -/
theorem withReg_of_firstBad {r : Byte} {rs : List Byte} {k : RegIdx → Result} (h : firstBad (r :: rs) = some b)
    (hk : ∀ i, firstBad rs = some b → k i = .next (faultState s 4 (b.setWidth 32))) :
    withReg s r k = .next (faultState s 4 (b.setWidth 32)) := by
  rcases Nat.lt_or_ge r.toNat 32 with hr | hr
  · rw [withReg_of_lt hr]
    exact hk _ (by simpa [firstBad, Nat.not_le.2 hr] using h)
  · obtain rfl : r = b := by simpa [firstBad, hr] using h
    exact withReg_of_ge hr k

theorem withReg_of_firstBad_single {r : Byte} {k : RegIdx → Result} (h : firstBad [r] = some b) :
    withReg s r k = .next (faultState s 4 (b.setWidth 32)) :=
  withReg_of_firstBad h nofun

theorem compareWith_of_firstBad {test : Word → Word → Bool} {r1 r2 : Byte} (h : firstBad [r1, r2] = some b) :
    compareWith test r1 r2 s = .next (faultState s 4 (b.setWidth 32)) :=
  withReg_of_firstBad h fun _ => withReg_of_firstBad_single

theorem withRRR_of_firstBad {r1 r2 rd : Byte} {k : Word → Word → RegIdx → Result} (h : firstBad [r1, r2, rd] = some b) :
    withRRR r1 r2 rd s k = .next (faultState s 4 (b.setWidth 32)) :=
  withRRR_of_ge k h

/-- Settles O25: it holds, form by form. -/
theorem registerIndexIsChecked : Obligations.RegisterIndexIsChecked := by
  intro i s b h
  unfold exec
  cases i with
  | halt | not | illegal => cases h
  | jmp | jmpf | jmpb | jmpif | load => exact withReg_of_firstBad_single h
  | eq | gt | gte => exact compareWith_of_firstBad h
  | add | sub | mul | div | pow => exact withRRR_of_firstBad h

end Sys2Proof.Proofs
end

section
/-! What an instruction reads: two runs from states that differ only in what it does not read stay so related. From it, and from
what an instruction leaves unchanged, the frames O50 to O53. -/

namespace Sys2Proof.Proofs

open Sys2Proof.Machine Sys2Proof.Claims Sys2Proof.Laws

/-- The two states agree on everything that fetching or some instruction reads, `cmp` apart. -/
structure SameReads (s s' : State) : Prop where
  x : s'.x = s.x := by rfl
  pc : s'.pc = s.pc := by rfl
  runState : s'.runState = s.runState := by rfl
  prog : s'.prog = s.prog := by rfl
  progLen : s'.progLen = s.progLen := by rfl
  params : s'.params = s.params := by rfl

/-- A relation between states that differ only in fields no instruction reads (`cmp` apart), kept by every update. -/
structure Unread (R : State → State → Prop) : Prop where
  sameReads {s s'} : R s s' → SameReads s s'
  raiseFault {s s'} (c : Cause) (info : BitVec 32) : R s s' → R (raiseFault s c info) (raiseFault s' c info)
  halt {s s'} : R s s' → R (halt s) (halt s')
  setPc {s s'} (a : Addr) : R s s' → R { s with pc := a } { s' with pc := a }
  writeReg {s s'} (i : RegIdx) (w : Word) : R s s' → R (writeReg s i w) (writeReg s' i w)
  writeCmp {s s'} (b : Bool) : R s s' → R (writeCmp s b) (writeCmp s' b)
  writeRemainder {s s'} (m : Word) : R s s' → R (writeRemainder s m) (writeRemainder s' m)

/-- Both answers are next states, and these are related. -/
def Related (R : State → State → Prop) (r r' : Result) : Prop := ∃ t t', r = .next t ∧ r' = .next t' ∧ R t t'

theorem Related.of_next {R : State → State → Prop} {r r' : Result} {t : State} (h : Related R r r') (hr : r = .next t) :
    ∃ t', r' = .next t' ∧ R t t' := by
  obtain ⟨u, t', hu, ht', hR⟩ := h
  obtain rfl : u = t := by simpa [hu] using hr
  exact ⟨t', ht', hR⟩

section
variable {R : State → State → Prop} (hR : Unread R) {s s' : State} (h : R s s')
include hR h

theorem raiseFault_related (c : Cause) (info : BitVec 32) :
    Related R (.next (raiseFault s c info)) (.next (raiseFault s' c info)) := ⟨_, _, rfl, rfl, hR.raiseFault c info h⟩

theorem advance_related (n : Nat) : R (advance s n) (advance s' n) := by
  unfold advance
  rw [(hR.sameReads h).pc]
  exact hR.setPc _ h

theorem readReg_eq (i : RegIdx) : readReg s' i = readReg s i := by
  simp only [readReg, (hR.sameReads h).x]

theorem jumpBase_eq : jumpBase s' = jumpBase s := by
  simp only [jumpBase, (hR.sameReads h).pc, (hR.sameReads h).params]

theorem withReg_related {b : Byte} {k k' : RegIdx → Result} (hk : ∀ i, Related R (k i) (k' i)) :
    Related R (withReg s b k) (withReg s' b k') := by
  unfold withReg
  split
  · exact hk _
  · exact raiseFault_related hR h _ _

theorem withRRR_related {r1 r2 rd : Byte} {k k' : Word → Word → RegIdx → Result}
    (hk : ∀ a b d, Related R (k a b d) (k' a b d)) : Related R (withRRR r1 r2 rd s k) (withRRR r1 r2 rd s' k') :=
  withReg_related hR h fun _ => withReg_related hR h fun _ => withReg_related hR h fun _ => by
    rw [readReg_eq hR h, readReg_eq hR h]
    exact hk _ _ _

theorem writeResult_related (d : RegIdx) (result : Option Word) :
    Related R (writeResult s d result) (writeResult s' d result) := by
  cases result with
  | none => exact raiseFault_related hR h _ _
  | some w => exact ⟨_, _, rfl, rfl, advance_related hR (hR.writeReg d w h) 4⟩

/-- ADD, SUB and MUL. -/
theorem arith_related (r1 r2 rd : Byte) (f : Word → Word → Int) :
    Related R (withRRR r1 r2 rd s fun a b d => writeResult s d (arith32 s.params.overflowMode (f a b)))
      (withRRR r1 r2 rd s' fun a b d => writeResult s' d (arith32 s'.params.overflowMode (f a b))) := by
  rw [(hR.sameReads h).params]
  exact withRRR_related hR h fun _ _ _ => writeResult_related hR h _ _

theorem execDiv_related (r1 r2 rd : Byte) : Related R (execDiv r1 r2 rd s) (execDiv r1 r2 rd s') := by
  unfold execDiv
  rw [(hR.sameReads h).params]
  refine withRRR_related hR h fun a b d => ?_
  split
  · exact raiseFault_related hR h _ _
  · split
    · exact raiseFault_related hR h _ _
    · exact ⟨_, _, rfl, rfl, advance_related hR (hR.writeRemainder _ (hR.writeReg d _ h)) 4⟩

theorem execPow_related (r1 r2 rd : Byte) : Related R (execPow r1 r2 rd s) (execPow r1 r2 rd s') := by
  unfold execPow
  rw [(hR.sameReads h).params]
  refine withRRR_related hR h fun a e d => ?_
  split
  · exact raiseFault_related hR h _ _
  · exact writeResult_related hR h _ _

theorem compareWith_related (test : Word → Word → Bool) (r1 r2 : Byte) :
    Related R (compareWith test r1 r2 s) (compareWith test r1 r2 s') :=
  withReg_related hR h fun _ => withReg_related hR h fun _ => by
    rw [readReg_eq hR h, readReg_eq hR h]
    exact ⟨_, _, rfl, rfl, advance_related hR (hR.writeCmp _ h) 3⟩

theorem jumpTo_related (a : Int) : Related R (jumpTo s a) (jumpTo s' a) := by
  unfold jumpTo
  split
  · exact raiseFault_related hR h _ _
  · exact ⟨_, _, rfl, rfl, hR.setPc _ h⟩

theorem execJmpif_related (r : Byte) (hcmp : s'.cmp = s.cmp) : Related R (execJmpif r s) (execJmpif r s') :=
  withReg_related hR h fun _ => by
    rw [readReg_eq hR h, hcmp]
    split
    · exact jumpTo_related hR h _
    · exact ⟨_, _, rfl, rfl, advance_related hR h 2⟩

theorem execNot_related (hcmp : s'.cmp = s.cmp) : Related R (execNot s) (execNot s') := by
  unfold execNot
  rw [hcmp]
  exact ⟨_, _, rfl, rfl, advance_related hR (hR.writeCmp _ h) 1⟩

/-- No instruction reads what the relation leaves open; only NOT and JMPIF read `cmp`. -/
theorem exec_related : ∀ i : Instr, (i.opcode = some .not ∨ i.opcode = some .jmpif → s'.cmp = s.cmp) →
    Related R (exec i s) (exec i s')
  | .halt, _ => ⟨_, _, rfl, rfl, advance_related hR (hR.halt h) 1⟩
  | .not, hcmp => execNot_related hR h (hcmp (.inl rfl))
  | .jmp _, _ => withReg_related hR h fun _ => by
    rw [readReg_eq hR h]
    exact jumpTo_related hR h _
  | .jmpf _, _ => withReg_related hR h fun _ => by
    rw [readReg_eq hR h, jumpBase_eq hR h]
    exact jumpTo_related hR h _
  | .jmpb _, _ => withReg_related hR h fun _ => by
    rw [readReg_eq hR h, jumpBase_eq hR h]
    exact jumpTo_related hR h _
  | .jmpif r, hcmp => execJmpif_related hR h r (hcmp (.inr rfl))
  | .eq r1 r2, _ => compareWith_related hR h cmpEq r1 r2
  | .gt r1 r2, _ => compareWith_related hR h cmpGt r1 r2
  | .gte r1 r2, _ => compareWith_related hR h cmpGte r1 r2
  | .add r1 r2 rd, _ => arith_related hR h r1 r2 rd fun a b => a.toInt + b.toInt
  | .sub r1 r2 rd, _ => arith_related hR h r1 r2 rd fun a b => a.toInt - b.toInt
  | .mul r1 r2 rd, _ => arith_related hR h r1 r2 rd fun a b => a.toInt * b.toInt
  | .div r1 r2 rd, _ => execDiv_related hR h r1 r2 rd
  | .pow r1 r2 rd, _ => execPow_related hR h r1 r2 rd
  | .load _ v, _ => withReg_related hR h fun i => ⟨_, _, rfl, rfl, advance_related hR (hR.writeReg i (immValue v) h) 4⟩
  | .illegal _, _ => raiseFault_related hR h _ _

theorem fetch_eq : fetch s' = fetch s :=
  have hr := hR.sameReads h
  fetch_congr hr.pc hr.prog hr.progLen hr.params

theorem step_related (hcmp : s'.cmp = s.cmp) : Related R (step s) (step s') := by
  unfold step
  rw [(hR.sameReads h).runState, fetch_eq hR h]
  split
  · exact ⟨_, _, rfl, rfl, h⟩
  · split
    · exact ⟨_, _, rfl, rfl, hR.halt h⟩
    · exact raiseFault_related hR h _ _
    · next habsent => exact absurd habsent (fetch_ne_absent s)
    · exact exec_related hR h _ fun _ => hcmp

end

/-! ### The three fields that are left open -/

/-- `s'` is `s` with any value in `remainder`. -/
def ApartFromRemainder (s s' : State) : Prop := ∃ m, s' = { s with remainder := m }

/-- `s'` is `s` with any value in `cmp`. -/
def ApartFromCmp (s s' : State) : Prop := ∃ b, s' = { s with cmp := b }

/-- `s'` is `s` with any values in the fault status. -/
def ApartFromFault (s s' : State) : Prop := ∃ c f, s' = { s with faultCause := c, faultInfo := f }

theorem unread_apartFromRemainder : Unread ApartFromRemainder where
  sameReads := by rintro s _ ⟨m, rfl⟩; exact {}
  raiseFault _ _ := by rintro ⟨m, rfl⟩; exact ⟨m, rfl⟩
  halt := by rintro s _ ⟨m, rfl⟩; exact ⟨m, rfl⟩
  setPc _ := by rintro ⟨m, rfl⟩; exact ⟨m, rfl⟩
  writeReg _ _ := by rintro ⟨m, rfl⟩; exact ⟨m, rfl⟩
  writeCmp _ := by rintro ⟨m, rfl⟩; exact ⟨m, rfl⟩
  writeRemainder m := by rintro ⟨_, rfl⟩; exact ⟨m, rfl⟩

theorem unread_apartFromCmp : Unread ApartFromCmp where
  sameReads := by rintro s _ ⟨b, rfl⟩; exact {}
  raiseFault _ _ := by rintro ⟨b, rfl⟩; exact ⟨b, rfl⟩
  halt := by rintro s _ ⟨b, rfl⟩; exact ⟨b, rfl⟩
  setPc _ := by rintro ⟨b, rfl⟩; exact ⟨b, rfl⟩
  writeReg _ _ := by rintro ⟨b, rfl⟩; exact ⟨b, rfl⟩
  writeCmp b := by rintro ⟨_, rfl⟩; exact ⟨b, rfl⟩
  writeRemainder _ := by rintro ⟨b, rfl⟩; exact ⟨b, rfl⟩

theorem unread_apartFromFault : Unread ApartFromFault where
  sameReads := by rintro s _ ⟨c, f, rfl⟩; exact {}
  raiseFault c f := by rintro ⟨_, _, rfl⟩; exact ⟨c.code, f, rfl⟩
  halt := by rintro s _ ⟨c, f, rfl⟩; exact ⟨c, f, rfl⟩
  setPc _ := by rintro ⟨c, f, rfl⟩; exact ⟨c, f, rfl⟩
  writeReg _ _ := by rintro ⟨c, f, rfl⟩; exact ⟨c, f, rfl⟩
  writeCmp _ := by rintro ⟨c, f, rfl⟩; exact ⟨c, f, rfl⟩
  writeRemainder _ := by rintro ⟨c, f, rfl⟩; exact ⟨c, f, rfl⟩

/-! ### The frames -/

/-- Settles O50: it holds. An instruction that completes writes its destination at most, a fault writes no register. -/
theorem onlyTheDestinationRegisterChanges : Obligations.OnlyTheDestinationRegisterChanges := by
  intro i s t j h hj
  obtain ht | ⟨c, info, -, rfl⟩ := exec_next h
  · exact ht.x j hj
  · rfl

theorem exec_remainder {i : Instr} {s t : State} (h : exec i s = .next t) (hi : i.opcode ≠ some .div) :
    t.remainder = s.remainder := by
  obtain ht | ⟨c, info, -, rfl⟩ := exec_next h
  · exact ht.remainder hi
  · rfl

theorem exec_cmp {i : Instr} {s t : State} (h : exec i s = .next t) (hi : i.opcode ∉ flagWriters) : t.cmp = s.cmp := by
  obtain ht | ⟨c, info, -, rfl⟩ := exec_next h
  · exact ht.cmp hi
  · rfl

/-- Settles O51: it holds, by the frame of each instruction and by two runs apart from `remainder`. -/
theorem remainderIsWrittenByDivAndNeverRead : Obligations.RemainderIsWrittenByDivAndNeverRead := by
  refine ⟨fun i s t => exec_remainder, fun s t m h => ?_⟩
  obtain ⟨t', ht', n, rfl⟩ := (step_related unread_apartFromRemainder ⟨m, rfl⟩ rfl).of_next h
  exact ⟨_, ht', rfl⟩

/-- Settles O52: it holds, by the frame of each instruction and by two runs apart from `cmp`. -/
theorem flagIsWrittenAndReadByItsInstructions : Obligations.FlagIsWrittenAndReadByItsInstructions := by
  refine ⟨fun i s t h heq hgt hgte hnot => exec_cmp h (by simp [heq, hgt, hgte, hnot]), fun i s t b h hnot hjmpif => ?_⟩
  obtain ⟨t', ht', c, rfl⟩ :=
    (exec_related unread_apartFromCmp ⟨b, rfl⟩ i fun hi => absurd hi (not_or_intro hnot hjmpif)).of_next h
  exact ⟨_, ht', rfl⟩

/-- Settles O53: it holds, by two runs apart from the fault status. -/
theorem faultStatusIsNeverRead : Obligations.FaultStatusIsNeverRead := by
  intro s t c f h
  obtain ⟨t', ht', c', f', rfl⟩ := (step_related unread_apartFromFault ⟨c, f, rfl⟩ rfl).of_next h
  exact ⟨_, ht', rfl⟩

end Sys2Proof.Proofs
end

section
/-! The program buffer: how it is installed, how operands are read from it, and that nothing writes it: O4, O17, O20, O37. -/

namespace Sys2Proof.Proofs

open Sys2Proof.Machine Sys2Proof.Claims Sys2Proof.Laws

/-! ### Installing a program -/

/-- The state an admitted launch starts in (rules R25, R31, R122). -/
def installed (p : Params) (bytes : List Byte) : State :=
  { State.reset with prog := Memory.writeBytes [] 0 bytes, progLen := BitVec.ofNat 32 bytes.length, params := p }

theorem install_eq_some_iff {p : Params} {bytes : List Byte} {s : State} :
    install p bytes = some s ↔ p.wf = true ∧ bytes.length ≤ 4294967295 ∧ s = installed p bytes := by
  simp [install, and_assoc, eq_comm (a := s), installed]

theorem installed_progLen {p : Params} {bytes : List Byte} (h : bytes.length ≤ 4294967295) :
    (installed p bytes).progLen.toNat = bytes.length :=
  Nat.mod_eq_of_lt (by omega)

theorem memRead_installed {p : Params} {bytes : List Byte} (h : bytes.length ≤ 4294967295) (a : Nat) :
    memRead (installed p bytes) a = bytes[a]? := by
  rcases Nat.lt_or_ge a bytes.length with ha | ha
  · have hread : (Memory.writeBytes [] 0 bytes).read a = bytes[a] := by
      rw [Memory.read_writeBytes 0 bytes a rfl, dif_pos ⟨Nat.zero_le a, ha⟩]
      rfl
    rw [memRead_of_lt (by rwa [installed_progLen h]), List.getElem?_eq_getElem ha]
    exact congrArg some hread
  · rw [List.getElem?_eq_none ha, memRead, if_neg (by rw [installed_progLen h]; omega)]

/-- Settles O4: it holds, since a read of written bytes gives them back and `L` ends the reading. -/
theorem installPlacesTheProgram : Obligations.InstallPlacesTheProgram := fun p bytes hp hlen =>
  ⟨installed p bytes, install_eq_some_iff.2 ⟨hp, hlen, rfl⟩, memRead_installed hlen, installed_progLen hlen, rfl, rfl⟩

/-! ### Fetching operands -/

variable {s t : State}

/-- Settles O17: it holds, since the fetch unit tests the operand bytes against `L` before it reads one. -/
theorem operandFetchRule : Obligations.OperandFetchRule := by
  intro s op k hr hop hd
  have hfetch := fetch_of_opcode hop hd
  refine ⟨fun hover => step_of_overrun hr (hfetch.trans (fetchOperands_overrun hover)), fun hfits => ?_⟩
  obtain ⟨bs, i, hbs, hi, hops⟩ := fetchOperands_in_range hfits
  exact ⟨bs, i, hbs, hi, step_of_instr hr (hfetch.trans hops)⟩

theorem memReadBytes_cons {a n : Nat} {b : Byte} {bs : List Byte} (hb : memRead s a = some b)
    (hbs : memReadBytes s (a + 1) n = some bs) : memReadBytes s a (n + 1) = some (b :: bs) := by
  simp [memReadBytes, hb, hbs]

/-- A two-byte read is made of its two bytes, the high one at the lower address (rule R36). -/
theorem memRead2_eq_some {a : Nat} {v : Half} (h : memRead2 s a = some v) :
    ∃ hi lo, memReadBytes s a 2 = some [hi, lo] ∧ v = immOfBytes hi lo := by
  unfold memRead2 at h
  split at h
  · next hi lo hhi hlo =>
    exact ⟨hi, lo, memReadBytes_cons hhi (memReadBytes_cons hlo rfl), (Option.some.inj h).symm⟩
  · cases h

/-- LOAD into an existing register writes the sign-extended immediate and goes on (rules R49, R80). -/
theorem exec_load_of_lt {r : Byte} (hr : r.toNat < 32) (v : Half) :
    exec (.load r v) s = .next { s with x := s.x.set r.toNat (BitVec.ofInt 32 v.toInt), pc := s.pc + 4 } :=
  withReg_of_lt hr _

/-- Settles O37: it holds, since the immediate's two bytes are the last two operand bytes of LOAD. -/
theorem loadTakesBigEndianImmediate : Obligations.LoadTakesBigEndianImmediate := by
  intro s op r imm hr hrun hop hd hreg himm
  obtain ⟨hi, lo, hbytes, rfl⟩ := memRead2_eq_some himm
  have hfetch : fetch s = .instr (.load r (immOfBytes hi lo)) :=
    (fetch_of_opcode hop hd).trans
      (fetchOperands_of_takeOperands (memRead_eq_some hop) (memReadBytes_cons hreg hbytes) rfl)
  rw [step_of_instr hrun hfetch, exec_load_of_lt hr]

/-! ### Nothing writes the program buffer -/

/-- `t` has the program, the length and the parameters of `s` (rule R21). -/
structure SameLaunch (s t : State) : Prop where
  prog : t.prog = s.prog := by rfl
  progLen : t.progLen = s.progLen := by rfl
  params : t.params = s.params := by rfl

theorem SameLaunch.memRead_eq (h : SameLaunch s t) (a : Nat) : memRead t a = memRead s a := by
  simp only [memRead, h.prog, h.progLen]

theorem SameLaunch.unwritten (h : SameLaunch s t) :
    (∀ a, memRead t a = memRead s a) ∧ t.prog = s.prog ∧ t.progLen = s.progLen ∧ t.params = s.params :=
  ⟨h.memRead_eq, h.prog, h.progLen, h.params⟩

theorem Faults.sameLaunch (h : Faults s t) : SameLaunch s t := by
  obtain ⟨c, info, -, rfl⟩ := h
  exact {}

theorem Completes.sameLaunch {i : Instr} (h : Completes i s t) : SameLaunch s t :=
  ⟨h.prog, h.progLen, h.params⟩

theorem exec_sameLaunch {i : Instr} (h : exec i s = .next t) : SameLaunch s t :=
  (exec_next h).elim Completes.sameLaunch Faults.sameLaunch

theorem step_sameLaunch (h : step s = .next t) : SameLaunch s t := by
  cases hr : s.runState with
  | halted =>
    obtain rfl : s = t := by simpa [step_of_halted hr] using h
    exact {}
  | running =>
    cases stepRule_of_step hr h with
    | exhausted hL ht =>
      subst ht
      exact {}
    | faults hL ht => exact ht.sameLaunch
    | completes hL i hf ht => exact ht.sameLaunch

/-- Settles O20: it holds, since neither completing an instruction, nor a fault, nor exhaustion touches the launch data. -/
theorem memoryIsNeverWritten : Obligations.MemoryIsNeverWritten :=
  ⟨fun _ _ _ h => (exec_sameLaunch h).unwritten, fun _ _ h => (step_sameLaunch h).unwritten⟩

end Sys2Proof.Proofs
end

section
/-! The decoder and the encoder: O8, O10 to O14. -/

namespace Sys2Proof.Proofs

open Sys2Proof.Machine Sys2Proof.Claims Sys2Proof.Laws

variable {p : Params} {op : Byte} {k : Opcode} {i : Instr}

/-! ### Decode of encode and encode of decode -/

theorem decode_of_illegal (h : decodeOpcode p op = none) (rest : List Byte) :
    decode p (op :: rest) = .ok (.illegal op, rest) := by
  simp [decode, h]

theorem decode_of_takeOperands {bs rest : List Byte} (h : decodeOpcode p op = some k)
    (ht : takeOperands k bs = some (i, rest)) : decode p (op :: bs) = .ok (i, rest) := by
  simp [decode, h, ht]

theorem decode_of_takeOperands_none {bs : List Byte} (h : decodeOpcode p op = some k)
    (ht : takeOperands k bs = none) : decode p (op :: bs) = .error .truncated := by
  simp [decode, h, ht]

theorem takeOperands_none_of_lt {bs : List Byte} (h : bs.length < k.operandBytes) : takeOperands k bs = none :=
  Option.not_isSome_iff_eq_none.1 (by simp [takeOperands_isSome, h])

theorem exists_takeOperands_of_le {bs : List Byte} (h : k.operandBytes ≤ bs.length) :
    ∃ i, takeOperands k bs = some (i, bs.drop k.operandBytes) ∧ i.opcode = some k ∧ bs.take k.operandBytes = i.operands := by
  have hsome : (takeOperands k bs).isSome = true := by simp [takeOperands_isSome, h]
  obtain ⟨⟨i, rest⟩, ht⟩ := Option.isSome_iff_exists.1 hsome
  obtain ⟨hk, hbs⟩ := takeOperands_some ht
  rw [← operands_length hk, hbs, List.drop_left, List.take_left, ← hbs]
  exact ⟨i, ht, hk, rfl⟩

/-- Under an injective map a byte decodes to exactly the admitted instruction that has it (rule R51). -/
theorem decodeOpcode_eq_some_iff (hp : p.wf = true) :
    decodeOpcode p op = some k ↔ p.jumpSet.admits k = true ∧ p.opcodeMap.code k = op := by
  refine ⟨decodeOpcode_some, fun ⟨hadm, hcode⟩ => ?_⟩
  cases hd : decodeOpcode p op with
  | none => exact absurd hcode (decodeOpcode_none.1 hd k hadm)
  | some l =>
    obtain ⟨-, hl⟩ := decodeOpcode_some hd
    rw [code_injective hp (hl.trans hcode.symm)]

theorem wf_of_opcode (hk : i.opcode = some k) : i.wf p = p.jumpSet.admits k := by
  cases i <;> cases hk <;> rfl

theorem representable_iff : i.representable p = true ↔ ∃ k, i.opcode = some k ∧ p.jumpSet.admits k = true := by
  cases hk : i.opcode with
  | none => simp [Instr.representable, hk]
  | some k => simp [Instr.representable, hk, wf_of_opcode hk]

theorem encode_of_opcode (m : OpcodeMap) (hk : i.opcode = some k) : encode m i = some (m.code k :: i.operands) := by
  simp [encode, hk]

theorem encode_length_le {m : OpcodeMap} {bs : List Byte} (h : encode m i = some bs) : bs.length ≤ 4 := by
  obtain ⟨k, hk, rfl⟩ := Option.map_eq_some_iff.1 h
  rw [List.length_cons, operands_length hk]
  cases k <;> decide

/-- Settles O13: it holds, since the opcode map is injective and the operand bytes of an instruction are taken back as it. -/
theorem encodeIsInverseOfDecode : Obligations.EncodeIsInverseOfDecode := by
  refine fun p hp => ⟨fun i hi => ?_, fun op => rfl, fun op k ops hd hlen => ?_⟩
  · obtain ⟨k, hk, hadm⟩ := representable_iff.1 hi
    have henc := encode_of_opcode p.opcodeMap hk
    exact ⟨_, henc, encode_length_le henc, fun rest =>
      decode_of_takeOperands ((decodeOpcode_eq_some_iff hp).2 ⟨hadm, rfl⟩) (takeOperands_operands hk rest)⟩
  · obtain ⟨i, ht, hk, hops⟩ := exists_takeOperands_of_le hlen.ge
    rw [← hlen, List.drop_length] at ht
    rw [← hlen, List.take_length] at hops
    refine ⟨i, decode_of_takeOperands hd ht, ?_⟩
    rw [encode_of_opcode _ hk, (decodeOpcode_some hd).2, hops]

/-- Settles O14: it holds, since operands are taken exactly when there are enough bytes. -/
theorem decodeTakesExactlyOneInstruction : Obligations.DecodeTakesExactlyOneInstruction := by
  refine fun p op rest => ⟨fun hd => decode_of_illegal hd rest, fun k hd => ⟨fun hlt => ?_, fun hle => ?_⟩⟩
  · exact decode_of_takeOperands_none hd (takeOperands_none_of_lt hlt)
  · obtain ⟨i, ht, hk, -⟩ := exists_takeOperands_of_le hle
    exact ⟨i, decode_of_takeOperands hd ht, hk, (wf_of_opcode hk).trans (decodeOpcode_some hd).1⟩

/-! ### The opcode map and the jump set -/

/-- Settles O11: it holds for every injective opcode map. -/
theorem decodeOpcodeRule : Obligations.DecodeOpcodeRule :=
  fun _ _ hp => ⟨fun _ => decodeOpcode_eq_some_iff hp, decodeOpcode_none⟩

/-- The map of rule R52 numbers the instructions in the order of the table. -/
theorem getElem?_code_spec (k : Opcode) : Opcode.all[(OpcodeMap.spec.code k).toNat]? = some k := by
  cases k <;> rfl

/-- Settles O10: it holds, since the table lists every instruction at the index that is its byte. -/
theorem opcodeMapTable : Obligations.OpcodeMapTable := by
  intro op
  change decodeOpcode .spec op = Opcode.all[op.toNat]?
  ext k
  rw [decodeOpcode_eq_some_iff (by decide)]
  constructor
  · rintro ⟨-, rfl⟩
    exact getElem?_code_spec k
  · intro hk
    obtain ⟨hlt, -⟩ := List.getElem?_eq_some_iff.1 hk
    have hnodup : Opcode.all.Nodup := by decide
    exact ⟨rfl, BitVec.eq_of_toNat_eq ((List.getElem?_inj hlt hnodup).1 (hk.trans (getElem?_code_spec k).symm)).symm⟩

theorem decodeOpcode_code (hp : p.wf = true) (hk : p.jumpSet.admits k = true) :
    decodeOpcode p (p.opcodeMap.code k) = some k :=
  (decodeOpcode_eq_some_iff hp).2 ⟨hk, rfl⟩

/-- The byte of an instruction that JUMP_SET removes decodes to ILLEGAL (rule R58). -/
theorem decodeOpcode_code_removed (hp : p.wf = true) (hk : p.jumpSet.admits k = false) :
    decodeOpcode p (p.opcodeMap.code k) = none :=
  decodeOpcode_none.2 fun l hl hcode => by
    rw [code_injective hp hcode, hk] at hl
    cases hl

theorem admits_relativeOnly_iff : JumpSet.relativeOnly.admits k = true ↔ k ≠ .jmpif := by
  cases k <;> decide

theorem admits_jumpifOnly_iff : JumpSet.jumpifOnly.admits k = true ↔ k ≠ .jmpf ∧ k ≠ .jmpb := by
  cases k <;> decide

/-- The state under another jump set. -/
def withJumpSet (js : JumpSet) (s : State) : State := { s with params := { s.params with jumpSet := js } }

/-- The same answer with its next state put under another jump set. -/
def underJumpSet (js : JumpSet) : Result → Result
  | .next s => .next (withJumpSet js s)
  | r => r

section
variable (js : JumpSet) (s : State)

theorem withJumpSet_overflowMode : (withJumpSet js s).params.overflowMode = s.params.overflowMode := rfl

theorem withReg_withJumpSet {b : Byte} {c c' : RegIdx → Result} (h : ∀ i, c' i = underJumpSet js (c i)) :
    withReg (withJumpSet js s) b c' = underJumpSet js (withReg s b c) := by
  unfold withReg
  split
  · exact h _
  · rfl

theorem withRRR_withJumpSet {r1 r2 rd : Byte} {c c' : Word → Word → RegIdx → Result}
    (h : ∀ a b d, c' a b d = underJumpSet js (c a b d)) :
    withRRR r1 r2 rd (withJumpSet js s) c' = underJumpSet js (withRRR r1 r2 rd s c) :=
  withReg_withJumpSet js s fun _ => withReg_withJumpSet js s fun _ => withReg_withJumpSet js s fun _ => h _ _ _

theorem writeResult_withJumpSet (d : RegIdx) (result : Option Word) :
    writeResult (withJumpSet js s) d result = underJumpSet js (writeResult s d result) := by
  cases result <;> rfl

/-- ADD, SUB and MUL. -/
theorem arith_withJumpSet (r1 r2 rd : Byte) (f : Word → Word → Int) :
    (withRRR r1 r2 rd (withJumpSet js s) fun a b d =>
      writeResult (withJumpSet js s) d (arith32 (withJumpSet js s).params.overflowMode (f a b))) =
    underJumpSet js (withRRR r1 r2 rd s fun a b d => writeResult s d (arith32 s.params.overflowMode (f a b))) :=
  withRRR_withJumpSet js s fun _ _ d => writeResult_withJumpSet js s d _

theorem compareWith_withJumpSet (test : Word → Word → Bool) (r1 r2 : Byte) :
    compareWith test r1 r2 (withJumpSet js s) = underJumpSet js (compareWith test r1 r2 s) :=
  withReg_withJumpSet js s fun _ => withReg_withJumpSet js s fun _ => rfl

theorem jumpTo_withJumpSet (a : Int) : jumpTo (withJumpSet js s) a = underJumpSet js (jumpTo s a) := by
  unfold jumpTo
  split <;> rfl

theorem execJmpif_withJumpSet (r : Byte) : execJmpif r (withJumpSet js s) = underJumpSet js (execJmpif r s) :=
  withReg_withJumpSet js s fun _ => by
    change (if s.cmp then _ else _) = _
    split
    · exact jumpTo_withJumpSet js s _
    · rfl

theorem execDiv_withJumpSet (r1 r2 rd : Byte) :
    execDiv r1 r2 rd (withJumpSet js s) = underJumpSet js (execDiv r1 r2 rd s) := by
  unfold execDiv
  rw [withJumpSet_overflowMode]
  refine withRRR_withJumpSet js s fun a b d => ?_
  split
  · rfl
  · split <;> rfl

theorem execPow_withJumpSet (r1 r2 rd : Byte) :
    execPow r1 r2 rd (withJumpSet js s) = underJumpSet js (execPow r1 r2 rd s) :=
  withRRR_withJumpSet js s fun a e d => by
    split
    · rfl
    · exact writeResult_withJumpSet js s d _

/-- Executing an instruction neither reads the jump set nor changes it (rule R58). -/
theorem exec_withJumpSet : ∀ i : Instr, exec i (withJumpSet js s) = underJumpSet js (exec i s)
  | .halt | .not | .illegal _ => rfl
  | .jmp _ | .jmpf _ | .jmpb _ => withReg_withJumpSet js s fun _ => jumpTo_withJumpSet js s _
  | .jmpif r => execJmpif_withJumpSet js s r
  | .eq r1 r2 => compareWith_withJumpSet js s cmpEq r1 r2
  | .gt r1 r2 => compareWith_withJumpSet js s cmpGt r1 r2
  | .gte r1 r2 => compareWith_withJumpSet js s cmpGte r1 r2
  | .add r1 r2 rd => arith_withJumpSet js s r1 r2 rd fun a b => a.toInt + b.toInt
  | .sub r1 r2 rd => arith_withJumpSet js s r1 r2 rd fun a b => a.toInt - b.toInt
  | .mul r1 r2 rd => arith_withJumpSet js s r1 r2 rd fun a b => a.toInt * b.toInt
  | .div r1 r2 rd => execDiv_withJumpSet js s r1 r2 rd
  | .pow r1 r2 rd => execPow_withJumpSet js s r1 r2 rd
  | .load _ _ => withReg_withJumpSet js s fun _ => rfl

end

/-- Settles O12: it holds. The map is injective, so each jump set removes its own rows alone, and no meaning reads it. -/
theorem jumpSetRule : Obligations.JumpSetRule := by
  refine fun m b v hm => ⟨fun k => decodeOpcode_code (p := ⟨m, .full, b, v⟩) hm rfl,
    decodeOpcode_code_removed (p := ⟨m, .relativeOnly, b, v⟩) (k := .jmpif) hm rfl,
    fun k hk => decodeOpcode_code (p := ⟨m, .relativeOnly, b, v⟩) hm (admits_relativeOnly_iff.2 hk),
    decodeOpcode_code_removed (p := ⟨m, .jumpifOnly, b, v⟩) (k := .jmpf) hm rfl,
    decodeOpcode_code_removed (p := ⟨m, .jumpifOnly, b, v⟩) (k := .jmpb) hm rfl,
    fun k hf hb => decodeOpcode_code (p := ⟨m, .jumpifOnly, b, v⟩) hm (admits_jumpifOnly_iff.2 ⟨hf, hb⟩), fun i s js => ?_⟩
  obtain ⟨t, ht, -⟩ := exec_answers { s with params := ⟨m, .full, b, v⟩ } i
  have hparams : t.params = ⟨m, .full, b, v⟩ := (exec_sameLaunch ht).params
  have hjs := exec_withJumpSet js { s with params := ⟨m, .full, b, v⟩ } i
  refine ⟨t, ?_, hjs.trans ?_⟩
  · rw [ht, ← hparams]
  · simp only [ht, underJumpSet, withJumpSet, hparams]

/-! ### The fields of every format -/

theorem immHi_eq (v : Half) : immHi v = BitVec.ofNat 8 (v.toNat / 256) := by
  rw [← immHi_toNat, BitVec.ofNat_toNat, BitVec.setWidth_eq]

theorem immLo_eq (v : Half) : immLo v = BitVec.ofNat 8 (v.toNat % 256) := by
  rw [← immLo_toNat, BitVec.ofNat_toNat, BitVec.setWidth_eq]

/-- Settles O8: it holds, field by field; the immediate's two bytes are its quotient and remainder by 256. -/
theorem encodingLayout : Obligations.EncodingLayout := fun m r r1 r2 rd v =>
  ⟨rfl, rfl, rfl, rfl, rfl, rfl, rfl, rfl, rfl, rfl, rfl, rfl, rfl, rfl, by
    rw [encode_of_opcode m rfl, Instr.operands, immHi_eq, immLo_eq]
    rfl⟩

end Sys2Proof.Proofs
end

section
/-! The lines of the assembly text, written and read back: O54 to O56. -/

namespace Sys2Proof.Proofs

open Sys2Proof.Machine Sys2Proof.Claims Sys2Proof.Laws

/-! ### The longest mnemonic (rule R63) -/

theorem dropText_eq_some_iff : ∀ {p l rest : List Char}, dropText p l = some rest ↔ l = p ++ rest
  | [], l, rest => by simp [dropText]
  | _ :: _, [], rest => by simp [dropText]
  | c :: p, d :: l, rest => by
    by_cases h : c = d
    · simp [dropText, h, dropText_eq_some_iff]
    · simp [dropText, h, Ne.symm h]

@[simp] theorem dropText_append (p rest : List Char) : dropText p (p ++ rest) = some rest := dropText_eq_some_iff.2 rfl

theorem mem_longestFirst (k : Opcode) : k ∈ longestFirst := by
  cases k <;> decide

theorem longestFirst_pairwise : longestFirst.Pairwise fun k k' => (mnemonic k').length ≤ (mnemonic k).length := by decide

/-- Settles O56: it holds, since the mnemonics are tried in falling order of length and the first that fits is taken. -/
theorem longestMnemonicWins : Obligations.LongestMnemonicWins := by
  intro l k rest h
  obtain ⟨tried, first, others, hsplit, hfirst, htried⟩ := List.findSome?_eq_some_iff.1 h
  obtain ⟨rest', hrest', hpair⟩ := Option.map_eq_some_iff.1 hfirst
  obtain ⟨rfl, rfl⟩ := Prod.mk.inj hpair
  refine ⟨dropText_eq_some_iff.1 hrest', ?_⟩
  rintro k' ⟨rest'', rfl⟩
  have hk' : k' ∈ tried ++ first :: others := hsplit ▸ mem_longestFirst k'
  have hsorted := longestFirst_pairwise
  rw [hsplit, List.pairwise_append, List.pairwise_cons] at hsorted
  obtain ⟨-, ⟨hothers, -⟩, -⟩ := hsorted
  rcases List.mem_append.1 hk' with htr | hin
  · simpa using htried k' htr
  · rcases List.mem_cons.1 hin with rfl | hot
    · exact le_rfl
    · exact hothers k' hot

theorem mnemonic_injective {k k' : Opcode} (h : mnemonic k = mnemonic k') : k = k' := by
  have hnodup : (longestFirst.map mnemonic).Nodup := by decide
  exact List.inj_on_of_nodup_map hnodup (mem_longestFirst k) (mem_longestFirst k') h

theorem space_not_mem_mnemonic (k : Opcode) : ' ' ∉ mnemonic k := by
  cases k <;> decide

theorem exists_parseMnemonic (k : Opcode) (rest : List Char) :
    ∃ k' rest', parseMnemonic (mnemonic k ++ rest) = some (k', rest') := by
  have hsome : (parseMnemonic (mnemonic k ++ rest)).isSome = true :=
    List.findSome?_isSome_iff.2 ⟨k, mem_longestFirst k, by simp⟩
  obtain ⟨⟨k', rest'⟩, h⟩ := Option.isSome_iff_exists.1 hsome
  exact ⟨k', rest', h⟩

/-- Nothing follows, or a space does, as after every mnemonic and every operand (rules R60, R61). -/
def AtBreak (l : List Char) : Prop := ∀ c ∈ l.head?, c = ' '

theorem atBreak_nil : AtBreak [] := nofun

theorem atBreak_space (l : List Char) : AtBreak (' ' :: l) := fun _ hc => (Option.mem_some.1 hc).symm

/-- A mnemonic before a break is read as itself: a longer one would run over the break. -/
theorem parseMnemonic_mnemonic (k : Opcode) {rest : List Char} (h : AtBreak rest) :
    parseMnemonic (mnemonic k ++ rest) = some (k, rest) := by
  obtain ⟨k', rest', hparse⟩ := exists_parseMnemonic k rest
  obtain ⟨hline, hlongest⟩ := longestMnemonicWins _ _ _ hparse
  obtain ⟨more, hmore⟩ : mnemonic k <+: mnemonic k' :=
    List.prefix_of_prefix_length_le ⟨rest, rfl⟩ ⟨rest', hline.symm⟩ (hlongest k ⟨rest, rfl⟩)
  rw [← hmore, List.append_assoc, List.append_cancel_left_eq] at hline
  cases more with
  | nil =>
    rw [List.append_nil] at hmore
    rw [hparse, mnemonic_injective hmore, hline, List.nil_append]
  | cons c more =>
    obtain rfl : c = ' ' := h c (by simp [hline])
    exact absurd (by simp [← hmore]) (space_not_mem_mnemonic k')

/-! ### Numbers and operands (rules R60, R61) -/

theorem isDigit_of_mem_decimal {n : Nat} {c : Char} (hc : c ∈ Nat.toDigits 10 n) : c.isDigit = true :=
  Nat.isDigit_of_mem_toDigits (by decide) (by decide) hc

/-- A decimal number before a break comes back, with what follows it. -/
theorem parseDigits_decimal (n : Nat) {rest : List Char} (h : AtBreak rest) :
    parseDigits (Nat.toDigits 10 n ++ rest) = some (n, rest) := by
  have hdigits : ∀ c ∈ Nat.toDigits 10 n, c.isDigit = true := fun _ => isDigit_of_mem_decimal
  have hrest : rest.takeWhile Char.isDigit = [] ∧ rest.dropWhile Char.isDigit = rest := by
    cases rest with
    | nil => exact ⟨rfl, rfl⟩
    | cons c rest =>
      obtain rfl : c = ' ' := h c rfl
      exact ⟨rfl, rfl⟩
  obtain ⟨htake, hdrop⟩ := hrest
  simp [parseDigits, List.takeWhile_append_of_pos hdigits, List.dropWhile_append_of_pos hdigits, htake, hdrop,
    Nat.ofDigitChars_ten_toDigits]

theorem dropText_minus_decimal (n : Nat) (rest : List Char) : dropText ['-'] (Nat.toDigits 10 n ++ rest) = none := by
  cases hd : Nat.toDigits 10 n with
  | nil => exact absurd hd Nat.toDigits_ne_nil
  | cons c ds =>
    have hc : c.isDigit = true := isDigit_of_mem_decimal (n := n) (by simp [hd])
    have hne : '-' ≠ c := by
      rintro rfl
      exact absurd hc (by decide)
    simp [dropText, hne]

theorem parseSigned_decimal (v : Int) {rest : List Char} (h : AtBreak rest) :
    parseSigned ((if v < 0 then ['-'] else []) ++ Nat.toDigits 10 v.natAbs ++ rest) = some (v, rest) := by
  by_cases hv : v < 0
  · simp [parseSigned, hv, dropText, parseDigits_decimal _ h, abs_of_neg hv]
  · simp [parseSigned, hv, dropText_minus_decimal, parseDigits_decimal _ h, Int.not_lt.1 hv]

theorem parseReg_regText (b : Byte) {rest : List Char} (h : AtBreak rest) :
    parseReg (regText b ++ rest) = .ok (b, rest) := by
  have hdrop : dropText [' ', '$'] (regText b ++ rest) = some (Nat.toDigits 10 b.toNat ++ rest) :=
    dropText_append [' ', '$'] _
  simp [parseReg, hdrop, parseDigits_decimal _ h, b.isLt]

theorem parseImm_immText (v : Half) {rest : List Char} (h : AtBreak rest) :
    parseImm (immText v ++ rest) = .ok (v, rest) := by
  have hdrop : dropText [' ', '#'] (immText v ++ rest) =
      some ((if v.toInt < 0 then ['-'] else []) ++ Nat.toDigits 10 v.toInt.natAbs ++ rest) := dropText_append [' ', '#'] _
  have hlow := BitVec.le_toInt v
  have hhigh := BitVec.toInt_lt (x := v)
  have hrange : -32768 ≤ v.toInt ∧ v.toInt ≤ 32767 := by omega
  simp only [parseImm, hdrop, Option.bind_some, parseSigned_decimal _ h, if_pos hrange, BitVec.ofInt_toInt]

theorem atBreak_regTexts : ∀ bs : List Byte, AtBreak (bs.flatMap regText)
  | [] => atBreak_nil
  | _ :: _ => atBreak_space _

theorem parseRegs_regTexts : ∀ bs : List Byte, parseRegs bs.length (bs.flatMap regText) = .ok (bs, [])
  | [] => rfl
  | b :: bs => by
    simp [parseRegs, parseReg_regText b (atBreak_regTexts bs), parseRegs_regTexts bs]

theorem parseRegImm_operandText (r : Byte) (v : Half) :
    parseRegImm (operandText (.load r v)) = .ok ([r, immHi v, immLo v], []) := by
  have hreg : parseReg (operandText (.load r v)) = .ok (r, immText v) := parseReg_regText r (atBreak_space _)
  have himm := parseImm_immText v atBreak_nil
  rw [List.append_nil] at himm
  simp [parseRegImm, hreg, himm]

/-- Only LOAD has an operand that is no register. -/
theorem opcode_eq_load_of_format {k : Opcode} (h : k.format = .ri) : k = .load := by
  cases k <;> cases h
  rfl

theorem parseOperands_of_format_ne_ri {k : Opcode} (h : k.format ≠ .ri) :
    parseOperands k.format = parseRegs k.operandBytes := by
  unfold Opcode.operandBytes
  cases hf : k.format with
  | ri => exact absurd hf h
  | z | r | rr | rrr => rfl

theorem operandText_of_format_ne_ri {i : Instr} {k : Opcode} (hk : i.opcode = some k) (h : k.format ≠ .ri) :
    operandText i = i.operands.flatMap regText := by
  cases i <;> cases hk
  case load => exact absurd rfl h
  all_goals simp [operandText, Instr.operands]

/-- The operands of an instruction are read back as its operand bytes. -/
theorem parseOperands_operandText {i : Instr} {k : Opcode} (hk : i.opcode = some k) :
    parseOperands k.format (operandText i) = .ok (i.operands, []) := by
  by_cases hri : k.format = .ri
  · obtain rfl := opcode_eq_load_of_format hri
    cases i <;> cases hk
    next r v => exact parseRegImm_operandText r v
  · rw [parseOperands_of_format_ne_ri hri, operandText_of_format_ne_ri hk hri, ← operands_length hk]
    exact parseRegs_regTexts i.operands

theorem atBreak_operandText (i : Instr) : AtBreak (operandText i) := by
  cases i
  case halt | not | illegal => exact atBreak_nil
  all_goals exact atBreak_space _

theorem parseLine_asmText {i : Instr} {l : List Char} (h : asmText i = some l) : parseLine l = .ok i := by
  obtain ⟨k, hk, rfl⟩ := Option.map_eq_some_iff.1 h
  have htake := takeOperands_operands hk []
  rw [List.append_nil] at htake
  simp [parseLine, parseMnemonic_mnemonic k (atBreak_operandText i), parseOperands_operandText hk, htake]

/-- Settles O55: it holds, by the longest match of the mnemonic and the round trip of decimal numbers. -/
theorem linesAreReadBack : Obligations.LinesAreReadBack := by
  intro i hi
  obtain ⟨k, hk⟩ := Option.isSome_iff_exists.1 hi
  have hl : asmText i = some (mnemonic k ++ operandText i) := by simp [asmText, hk]
  exact ⟨_, hl, parseLine_asmText hl⟩

/-- Settles O54: it holds, since a written line is read back. -/
theorem sourceLinesAssemble : Obligations.SourceLinesAssemble := by
  have hadd : asmText (.add 0 1 2) = some ['A', 'D', 'D', ' ', '$', '0', ' ', '$', '1', ' ', '$', '2'] := by decide
  have hload : asmText (.load 2 0xFFFF) = some ['L', 'O', 'A', 'D', ' ', '$', '2', ' ', '#', '-', '1'] := by decide
  exact ⟨hadd, parseLine_asmText hadd, hload, parseLine_asmText hload⟩

end Sys2Proof.Proofs
end

section
/-! Texts of several lines: the lines a text is made of, and what it assembles to, O57. -/

namespace Sys2Proof.Proofs

open Sys2Proof.Machine Sys2Proof.Claims Sys2Proof.Laws

/-- What stands in a line, white space included. -/
def lineText (l : SourceLine) : List Char := l.before ++ l.content ++ l.after

theorem textOf_eq (ls : List SourceLine) : textOf ls = List.intercalate ['\n'] (ls.map lineText) := rfl

theorem mem_whiteSpace {c : Char} : c ∈ whiteSpace ↔ isBlank c = true := by
  simp [whiteSpace, isBlank, or_assoc]

theorem not_mem_whiteSpace {c : Char} : c ∉ whiteSpace ↔ isBlank c = false := by
  rw [mem_whiteSpace, Bool.not_eq_true]

/-! ### Every text is made of lines -/

/-- A line without newlines, cut into its white space and its content. -/
def splitLine (l : List Char) : SourceLine where
  before := l.takeWhile isBlank
  content := trimLine l
  after := (l.dropWhile isBlank).rtakeWhile isBlank

theorem trimLine_eq_rdropWhile (l : List Char) : trimLine l = (l.dropWhile isBlank).rdropWhile isBlank := rfl

theorem lineText_splitLine (l : List Char) : lineText (splitLine l) = l := by
  simp only [lineText, splitLine, trimLine_eq_rdropWhile, List.append_assoc, List.rdropWhile_append_rtakeWhile,
    List.takeWhile_append_dropWhile]

theorem not_isBlank_of_head?_trimLine {l : List Char} {c : Char} (hc : c ∈ (trimLine l).head?) : isBlank c = false := by
  have hprefix : trimLine l <+: l.dropWhile isBlank := List.rdropWhile_prefix _ _
  have hhead := List.head?_dropWhile_not isBlank l
  obtain ⟨ts, hts⟩ := List.head?_eq_some_iff.1 hc
  obtain ⟨rest, hrest⟩ := hprefix
  rw [← hrest, hts] at hhead
  exact hhead

theorem not_isBlank_of_getLast?_trimLine {l : List Char} {c : Char} (hc : c ∈ (trimLine l).getLast?) :
    isBlank c = false := by
  obtain ⟨hne, rfl⟩ := List.mem_getLast?_eq_getLast hc
  exact Bool.eq_false_iff.2 (List.rdropWhile_last_not isBlank _ hne)

theorem splitLine_ok {l : List Char} (h : '\n' ∉ l) : (splitLine l).ok := by
  have hmem (c : Char) (hc : c ∈ trimLine l) : c ∈ l := by
    rw [← lineText_splitLine l]
    exact List.mem_append_left _ (List.mem_append_right _ hc)
  refine ⟨fun c hc => mem_whiteSpace.2 ?_, fun c hc => not_mem_whiteSpace.2 ?_, fun hn => h (hmem _ hn)⟩
  · rcases List.mem_append.1 hc with hb | ha
    · exact List.mem_takeWhile_imp hb
    · exact List.mem_rtakeWhile_imp ha
  · rcases List.mem_append.1 hc with hhead | hlast
    · exact not_isBlank_of_head?_trimLine (Option.mem_toList.1 hhead)
    · exact not_isBlank_of_getLast?_trimLine (Option.mem_toList.1 hlast)

/-- Every text is the text of its lines, each cut in three (rule R60). -/
theorem exists_textOf (text : List Char) : ∃ ls : List SourceLine, ls ≠ [] ∧ (∀ l ∈ ls, l.ok) ∧ text = textOf ls := by
  obtain ⟨hne, hnewline⟩ := textLines_no_newline text
  refine ⟨(textLines text).map splitLine, by simpa using hne, ?_, ?_⟩
  · simpa using fun l hl => splitLine_ok (hnewline l hl)
  · have hlines : lineText ∘ splitLine = id := funext lineText_splitLine
    rw [textOf_eq, List.map_map, hlines, List.map_id, intercalate_textLines]

/-! ### What the lines assemble to -/

theorem newline_not_mem_lineText {l : SourceLine} (h : l.ok) : '\n' ∉ lineText l := by
  obtain ⟨hblank, -, hnewline⟩ := h
  have hn : '\n' ∉ l.before ++ l.after := fun hmem => absurd (hblank _ hmem) (by decide)
  simp only [List.mem_append, not_or] at hn
  simp [lineText, hn, hnewline]

theorem trimLine_lineText {l : SourceLine} (h : l.ok) : trimLine (lineText l) = l.content := by
  obtain ⟨hblank, hends, -⟩ := h
  refine trimLine_padded _ _ _ (fun c hc => ?_) (fun c hc => ?_) (fun c hc => ?_) (fun c hc => ?_)
  · exact mem_whiteSpace.1 (hblank c (List.mem_append_left _ hc))
  · exact mem_whiteSpace.1 (hblank c (List.mem_append_right _ hc))
  · exact not_mem_whiteSpace.1 (hends c (List.mem_append_left _ (Option.mem_toList.2 hc)))
  · exact not_mem_whiteSpace.1 (hends c (List.mem_append_right _ (Option.mem_toList.2 hc)))

theorem assemble_textOf {ls : List SourceLine} (hne : ls ≠ []) (h : ∀ l ∈ ls, l.ok) :
    assemble (textOf ls) = assembleLines (ls.map lineText) := by
  rw [assemble, textOf_eq, textLines_intercalate _ (by simpa using hne)]
  simpa using fun l hl => newline_not_mem_lineText (h l hl)

section
variable {l : SourceLine} (h : l.ok) (ts : List (List Char))
include h

theorem assembleLines_blank (hc : l.content = []) : assembleLines (lineText l :: ts) = assembleLines ts := by
  simp [assembleLines, trimLine_lineText h, hc]

theorem assembleLines_instr {i : Instr} (hc : l.content ≠ []) (hi : parseLine l.content = .ok i) :
    assembleLines (lineText l :: ts) = (assembleLines ts).map (i :: ·) := by
  simp [assembleLines, trimLine_lineText h, hc, hi]

theorem assembleLines_rejected {e : AsmReject} (hc : l.content ≠ []) (he : parseLine l.content = .error e) :
    assembleLines (lineText l :: ts) = none := by
  simp [assembleLines, trimLine_lineText h, hc, he]

end

/-- When the contents that are not empty are read as instructions, the lines give these in order (rule R64). -/
theorem assembleLines_eq_some : ∀ {ls : List SourceLine} {is : List Instr}, (∀ l ∈ ls, l.ok) →
    (ls.filter (fun l => !l.content.isEmpty)).map (fun l => parseLine l.content) = is.map .ok →
    assembleLines (ls.map lineText) = some is
  | [], is, _, hread => by
    obtain rfl : is = [] := by simpa using hread
    rfl
  | l :: ls, is, hok, hread => by
    obtain ⟨hl, hls⟩ := List.forall_mem_cons.1 hok
    by_cases hc : l.content = []
    · rw [List.map_cons, assembleLines_blank hl _ hc]
      exact assembleLines_eq_some hls (by simpa [hc] using hread)
    · rw [List.filter_cons_of_pos (by simpa using hc), List.map_cons] at hread
      obtain ⟨i, is', rfl, hi, hread'⟩ := List.map_eq_cons_iff.1 hread.symm
      rw [List.map_cons, assembleLines_instr hl _ hc hi.symm, assembleLines_eq_some hls hread'.symm]
      rfl

/-- One content that is read as no instruction leaves nothing (rule R64). -/
theorem assembleLines_eq_none {bad : SourceLine} (hne : bad.content ≠ []) (hbad : ∀ i, parseLine bad.content ≠ .ok i) :
    ∀ {ls : List SourceLine}, (∀ l ∈ ls, l.ok) → bad ∈ ls → assembleLines (ls.map lineText) = none
  | [], _, hmem => absurd hmem List.not_mem_nil
  | l :: ls, hok, hmem => by
    obtain ⟨hl, hls⟩ := List.forall_mem_cons.1 hok
    rw [List.map_cons]
    cases hp : parseLine l.content with
    | error e =>
      by_cases hc : l.content = []
      · have hmem' : bad ∈ ls := (List.mem_cons.1 hmem).resolve_left fun heq => hne (heq ▸ hc)
        rw [assembleLines_blank hl _ hc, assembleLines_eq_none hne hbad hls hmem']
      · exact assembleLines_rejected hl _ hc hp
    | ok i =>
      have hmem' : bad ∈ ls := (List.mem_cons.1 hmem).resolve_left fun heq => hbad i (heq ▸ hp)
      have ih := assembleLines_eq_none hne hbad hls hmem'
      by_cases hc : l.content = []
      · rw [assembleLines_blank hl _ hc, ih]
      · rw [assembleLines_instr hl _ hc hp, ih, Option.map_none]

/-- Settles O57: it holds. Splitting undoes joining, trimming undoes padding, and the first line that is rejected decides. -/
theorem assemblyIsAllOrNothing : Obligations.AssemblyIsAllOrNothing :=
  ⟨exists_textOf, fun _ hne hok =>
    ⟨fun _ hread => (assemble_textOf hne hok).trans (assembleLines_eq_some hok hread),
     fun _ hmem hc hbad => (assemble_textOf hne hok).trans (assembleLines_eq_none hc hbad hok hmem)⟩⟩

end Sys2Proof.Proofs
end

section
/-! The arithmetic instructions: a result narrowed once and written, or a fault that writes nothing: O28 to O34. -/

namespace Sys2Proof.Proofs

open Sys2Proof.Machine Sys2Proof.Claims Sys2Proof.Laws

variable {s : State} {r1 r2 rd : Byte} {d : RegIdx} {v : Int}

/-! ### Writing a narrowed result (rule R76) -/

theorem arith32_of_wrap_or_inRange32 {mode : OverflowMode} (h : mode = .wrap ∨ inRange32 v) :
    arith32 mode v = some (BitVec.ofInt 32 v) := by
  rcases h with rfl | hv
  · exact arith32_wrap v
  · exact arith32_of_fits32 mode (fits32_iff_inRange32.2 hv)

theorem arith32_of_fault_of_not_inRange32 {mode : OverflowMode} (hm : mode = .fault) (hv : ¬ inRange32 v) :
    arith32 mode v = none :=
  hm ▸ arith32_fault_of_not_inRange32 hv

theorem writeResult_of_wrap_or_inRange32 (h : s.params.overflowMode = .wrap ∨ inRange32 v) :
    writeResult s d (arith32 s.params.overflowMode v) =
      .next { s with x := s.x.set d.val (BitVec.ofInt 32 v), pc := s.pc + 4 } :=
  congrArg (writeResult s d) (arith32_of_wrap_or_inRange32 h)

theorem writeResult_of_fault_of_not_inRange32 (hm : s.params.overflowMode = .fault) (hv : ¬ inRange32 v) :
    writeResult s d (arith32 s.params.overflowMode v) = .next (faultState s 7 0) :=
  congrArg (writeResult s d) (arith32_of_fault_of_not_inRange32 hm hv)

/-! ### ADD, SUB, MUL (rules R71 to R73) -/

/-- An instruction of the common form that narrows `f` of its sources and writes it follows the rule of `f`. -/
theorem arithRule_of_exec {name : List Char} {op : Byte} {mk : Byte → Byte → Byte → Instr} {f : Int → Int → Int}
    (hasm : ∀ r1 r2 rd, asmText (mk r1 r2 rd) = some (name ++ regText r1 ++ regText r2 ++ regText rd))
    (henc : ∀ r1 r2 rd, encode .spec (mk r1 r2 rd) = some [op, r1, r2, rd])
    (hexec : ∀ s r1 r2 rd, exec (mk r1 r2 rd) s =
      withRRR r1 r2 rd s fun a b d => writeResult s d (arith32 s.params.overflowMode (f a.toInt b.toInt))) :
    arithRule name op mk f := by
  refine fun s r1 r2 rd => ⟨hasm r1 r2 rd, henc r1 r2 rd, fun b hb => ?_, fun h1 h2 hd => ?_⟩
  · rw [hexec]
    exact withRRR_of_firstBad hb
  · rw [hexec, withRRR_of_lt h1 h2 hd]
    exact ⟨writeResult_of_wrap_or_inRange32, writeResult_of_fault_of_not_inRange32⟩

/-- Settles O28: it holds, since ADD has the common form with the sum. -/
theorem addRule : Obligations.AddRule :=
  arithRule_of_exec (fun _ _ _ => rfl) (fun _ _ _ => rfl) fun _ _ _ _ => rfl

/-- Settles O29: it holds, since SUB has the common form with the difference. -/
theorem subRule : Obligations.SubRule :=
  arithRule_of_exec (fun _ _ _ => rfl) (fun _ _ _ => rfl) fun _ _ _ _ => rfl

/-- Settles O30: it holds, since MUL has the common form with the product. -/
theorem mulRule : Obligations.MulRule :=
  arithRule_of_exec (fun _ _ _ => rfl) (fun _ _ _ => rfl) fun _ _ _ _ => rfl

/-! ### DIV (rule R74) -/

section
variable (h1 : r1.toNat < 32) (h2 : r2.toNat < 32) (hd : rd.toNat < 32)

include h1 hd in
theorem exec_div_of_zero (hb : s.x[r2.toNat].toInt = 0) : exec (.div r1 r2 rd) s = .next (faultState s 2 0) := by
  rw [exec, execDiv, withRRR_of_lt h1 h2 hd, if_pos hb]
  rfl

theorem exec_div_of_wrap_or_inRange32 (hb : s.x[r2.toNat].toInt ≠ 0)
    (hq : s.params.overflowMode = .wrap ∨ inRange32 (s.x[r1.toNat].toInt.tdiv s.x[r2.toNat].toInt)) :
    exec (.div r1 r2 rd) s = .next { s with
      x := s.x.set rd.toNat (BitVec.ofInt 32 (s.x[r1.toNat].toInt.tdiv s.x[r2.toNat].toInt))
      remainder := BitVec.ofInt 32
        (s.x[r1.toNat].toInt - s.x[r2.toNat].toInt * s.x[r1.toNat].toInt.tdiv s.x[r2.toNat].toInt)
      pc := s.pc + 4 } := by
  rw [exec, execDiv, withRRR_of_lt h1 h2 hd, if_neg hb, arith32_of_wrap_or_inRange32 hq]
  rfl

include hd in
theorem exec_div_of_fault_of_not_inRange32 (hb : s.x[r2.toNat].toInt ≠ 0) (hm : s.params.overflowMode = .fault)
    (hq : ¬ inRange32 (s.x[r1.toNat].toInt.tdiv s.x[r2.toNat].toInt)) :
    exec (.div r1 r2 rd) s = .next (faultState s 7 0) := by
  rw [exec, execDiv, withRRR_of_lt h1 h2 hd, if_neg hb, arith32_of_fault_of_not_inRange32 hm hq]
  rfl

end

/-- Settles O31: it holds, by the three ways DIV ends once its registers exist. -/
theorem divRule : Obligations.DivRule := by
  refine fun s r1 r2 rd => ⟨rfl, rfl, registerIndexIsChecked (.div r1 r2 rd) s, ?_⟩
  rintro h1 h2 hd _ _ _ rfl rfl rfl
  exact ⟨exec_div_of_zero h1 h2 hd, exec_div_of_wrap_or_inRange32 h1 h2 hd, exec_div_of_fault_of_not_inRange32 h1 h2 hd⟩

theorem natAbs_tmod_lt (a : Int) {b : Int} (hb : b ≠ 0) : (a.tmod b).natAbs < b.natAbs := by
  rw [Int.natAbs_tmod]
  exact Nat.mod_lt _ (Int.natAbs_pos.2 hb)

theorem tmod_eq_zero_or_sign_eq (a b : Int) : a.tmod b = 0 ∨ (a.tmod b).sign = a.sign := by
  by_cases h : b ∣ a
  · exact .inl (Int.tmod_eq_zero_of_dvd h)
  · exact .inr (by rw [Int.sign_tmod, if_neg h])

/-- The remainder is smaller than the divisor, so its 32 bits lose nothing (rule R74). -/
theorem toInt_ofInt_remainder (a b : Word) (hb : b.toInt ≠ 0) :
    (BitVec.ofInt 32 (a.toInt - b.toInt * a.toInt.tdiv b.toInt)).toInt = a.toInt.tmod b.toInt := by
  have hlt := natAbs_tmod_lt a.toInt hb
  have hfits := fits32_iff.1 (fits32_toInt b)
  rw [← Int.tmod_def]
  exact toInt_ofInt_of_fits32 (fits32_iff.2 (by omega))

/-- Settles O32: it holds, since the remainder register holds `tmod` of the two sources exactly. -/
theorem divisionIdentity : Obligations.DivisionIdentity := by
  intro s r1 r2 rd h1 h2 hd hmode hb
  refine ⟨_, exec_div_of_wrap_or_inRange32 h1 h2 hd hb (.inl hmode), ?_⟩
  rw [toInt_ofInt_remainder _ _ hb]
  exact ⟨(Int.mul_tdiv_add_tmod _ _).symm, natAbs_tmod_lt _ hb, tmod_eq_zero_or_sign_eq _ _⟩

/-! ### POW (rule R75) -/

section
variable (h1 : r1.toNat < 32) (h2 : r2.toNat < 32) (hd : rd.toNat < 32)

include h1 hd in
theorem exec_pow_of_neg (he : s.x[r2.toNat].toInt < 0) : exec (.pow r1 r2 rd) s = .next (faultState s 3 0) := by
  rw [exec, execPow, withRRR_of_lt h1 h2 hd, if_pos he]
  rfl

/-- With an exponent that is not negative POW writes the exact power, narrowed once. -/
theorem exec_pow_of_nonneg (he : 0 ≤ s.x[r2.toNat].toInt) :
    exec (.pow r1 r2 rd) s = writeResult s ⟨rd.toNat, hd⟩
      (arith32 s.params.overflowMode (s.x[r1.toNat].toInt ^ s.x[r2.toNat].toInt.toNat)) := by
  rw [exec, execPow, withRRR_of_lt h1 h2 hd, if_neg (Int.not_lt.2 he), pow32_exponent]

end

/-- Settles O33: it holds, since repeated squaring gives the exact power narrowed once. -/
theorem powRule : Obligations.PowRule := by
  refine fun s r1 r2 rd => ⟨rfl, rfl, registerIndexIsChecked (.pow r1 r2 rd) s, ?_⟩
  rintro h1 h2 hd _ _ rfl rfl
  refine ⟨exec_pow_of_neg h1 h2 hd, fun he hv => ?_, fun he hm hv => ?_⟩
  · exact (exec_pow_of_nonneg h1 h2 hd he).trans (writeResult_of_wrap_or_inRange32 hv)
  · exact (exec_pow_of_nonneg h1 h2 hd he).trans (writeResult_of_fault_of_not_inRange32 hm hv)

/-- Narrowing the exact power is the power of words, since narrowing commutes with each multiplication. -/
theorem ofInt_toInt_pow (w : Word) : ∀ n : Nat, BitVec.ofInt 32 (w.toInt ^ n) = w ^ n
  | 0 => by rw [pow_zero, pow_zero]; rfl
  | n + 1 => by rw [pow_succ, BitVec.ofInt_mul, ofInt_toInt_pow w n, BitVec.ofInt_toInt, pow_succ]

/-- Settles O34: it holds, since the narrowed power is the power of words, which is repeated multiplication. -/
theorem powIsRepeatedMultiplication : Obligations.PowIsRepeatedMultiplication := by
  intro s r1 r2 rd h1 h2 hd hmode he
  rw [exec_pow_of_nonneg h1 h2 hd he, writeResult_of_wrap_or_inRange32 (.inl hmode), ofInt_toInt_pow,
    mul_right_iterate_apply_one]

end Sys2Proof.Proofs
end

section
/-! LOAD: its text, its bytes, and the two ways executing it ends: O36. -/

namespace Sys2Proof.Proofs

open Sys2Proof.Machine Sys2Proof.Claims Sys2Proof.Laws

/-- The bytes of LOAD under any opcode map, the high byte of the immediate first (rules R47, R49). -/
theorem encode_load (m : OpcodeMap) (r : Byte) (v : Half) :
    encode m (.load r v) = some [m.load, r, BitVec.ofNat 8 (v.toNat / 256), BitVec.ofNat 8 (v.toNat % 256)] := by
  rw [encode_of_opcode m rfl, Instr.operands, immHi_eq, immLo_eq]
  rfl

/-- The value of an immediate, by the two cases of `sext_32` (rule R80). -/
theorem toInt_half (v : Half) : v.toInt = if v.toNat < 32768 then (v.toNat : Int) else v.toNat - 65536 := by
  have hsign : 2 * v.toNat < 2 ^ 16 ↔ v.toNat < 32768 := by omega
  exact (BitVec.toInt_eq_toNat_cond v).trans (if_congr hsign rfl rfl)

/-- Settles O36: it holds, since the register check decides between the fault and the write of the immediate's value. -/
theorem loadRule : Obligations.LoadRule := by
  refine fun s r v => ⟨rfl, encode_load .spec r v, fun hr => withReg_of_ge hr _, fun hr => ?_⟩
  rw [exec_load_of_lt hr, toInt_half]

end Sys2Proof.Proofs
end

section
/-! The jumps: a target that `pc` takes, or PcRange, which writes nothing: O38 to O42. -/

namespace Sys2Proof.Proofs

open Sys2Proof.Machine Sys2Proof.Claims Sys2Proof.Laws

variable {s : State} {r : Byte}

/-! ### Where a taken jump leads (rule R83) -/

theorem jumpTo_natCast (s : State) {n : Nat} (h : n ≤ 4294967295) :
    jumpTo s n = .next { s with pc := BitVec.ofNat 32 n } :=
  jumpTo_in_range s (Int.natCast_nonneg n) (Int.ofNat_le.2 h)

theorem jumpTo_toNat {t : Int} (h0 : 0 ≤ t) (h1 : t ≤ 4294967295) :
    jumpTo s t = .next { s with pc := BitVec.ofNat 32 t.toNat } := by
  lift t to Nat using h0
  exact jumpTo_natCast s (Int.ofNat_le.1 h1)

/-- A register's value is at most 2^31 - 1, so the upper bound cannot fail (rule R84). -/
theorem jumpTo_toInt {w : Word} (h : 0 ≤ w.toInt) : jumpTo s w.toInt = .next { s with pc := w } := by
  obtain ⟨-, hmax⟩ := fits32_iff.1 (fits32_toInt w)
  rw [jumpTo_in_range s h (hmax.trans (by decide)), BitVec.ofInt_toInt]

/-! ### JMP and JMPIF (rules R84, R87) -/

theorem exec_jmp_of_lt (hr : r.toNat < 32) : exec (.jmp r) s = jumpTo s s.x[r.toNat].toInt :=
  withReg_of_lt hr _

theorem exec_jmpif_of_lt (hr : r.toNat < 32) :
    exec (.jmpif r) s = if s.cmp then jumpTo s s.x[r.toNat].toInt else .next (advance s 2) :=
  withReg_of_lt hr _

/-- Settles O38: it holds, since an existing register holds the target itself. -/
theorem jmpRule : Obligations.JmpRule := by
  refine fun s r => ⟨rfl, rfl, fun hr => withReg_of_ge hr _, fun hr => ?_⟩
  rw [exec_jmp_of_lt hr]
  exact ⟨fun hneg => jumpTo_out_of_range s (.inl hneg), jumpTo_toInt⟩

/-- Settles O41: it holds, since `cmp` is tested after the index and before the target. -/
theorem jmpifRule : Obligations.JmpifRule := by
  refine ⟨fun js => by cases js <;> rfl, fun s r => ⟨rfl, rfl, fun hr => withReg_of_ge hr _, fun hr => ?_⟩⟩
  rw [exec_jmpif_of_lt hr]
  refine ⟨fun hc hneg => ?_, fun hc hpos => ?_, fun hc => ?_⟩
  · rw [if_pos hc]
    exact jumpTo_out_of_range s (.inl hneg)
  · rw [if_pos hc, jumpTo_toInt hpos]
  · rw [if_neg (Bool.eq_false_iff.1 hc)]
    rfl

/-! ### JMPF and JMPB (rules R85, R86, R89) -/

theorem exec_jmpf_of_lt (hr : r.toNat < 32) : exec (.jmpf r) s = jumpTo s (relBaseOf s + s.x[r.toNat].toInt) := by
  rw [← jumpBase_eq_relBaseOf]
  exact withReg_of_lt hr _

theorem exec_jmpb_of_lt (hr : r.toNat < 32) : exec (.jmpb r) s = jumpTo s (relBaseOf s - s.x[r.toNat].toInt) := by
  rw [← jumpBase_eq_relBaseOf]
  exact withReg_of_lt hr _

/-- An instruction with one register that jumps to `f` of the base and the register follows the rule of `f`. -/
theorem relJumpRule_of_exec {name : List Char} {op : Byte} {k : Opcode} {mk : Byte → Instr} {f : Int → Int → Int}
    (hdec : ∀ js, decodeOpcode { Params.spec with jumpSet := js } op = if js = .jumpifOnly then none else some k)
    (hasm : ∀ r, asmText (mk r) = some (name ++ regText r))
    (henc : ∀ r, encode .spec (mk r) = some [op, r])
    (hbad : ∀ (s : State) (r : Byte), 32 ≤ r.toNat → exec (mk r) s = .next (faultState s 4 (r.setWidth 32)))
    (hexec : ∀ (s : State) (r : Byte) (hr : r.toNat < 32),
      exec (mk r) s = jumpTo s (f (relBaseOf s) s.x[r.toNat].toInt)) :
    relJumpRule name op k mk f := by
  refine ⟨hdec, fun s r => ⟨hasm r, henc r, hbad s r, ?_⟩⟩
  rintro hr _ rfl
  rw [hexec s r hr]
  exact ⟨jumpTo_out_of_range s, jumpTo_toNat⟩

/-- Settles O39: it holds, since JMPF jumps to the base plus its register. -/
theorem jmpfRule : Obligations.JmpfRule :=
  relJumpRule_of_exec (fun js => by cases js <;> rfl) (fun _ => rfl) (fun _ => rfl) (fun _ _ hr => withReg_of_ge hr _)
    fun _ _ => exec_jmpf_of_lt

/-- Settles O40: it holds, since JMPB jumps to the base minus its register. -/
theorem jmpbRule : Obligations.JmpbRule :=
  relJumpRule_of_exec (fun js => by cases js <;> rfl) (fun _ => rfl) (fun _ => rfl) (fun _ _ hr => withReg_of_ge hr _)
    fun _ _ => exec_jmpb_of_lt

/-! ### A displacement of 0 (rule R89) -/

theorem exec_jmpf_of_zero (hr : r.toNat < 32) (hx : s.x[r.toNat] = 0) : exec (.jmpf r) s = jumpTo s (relBaseOf s) := by
  rw [exec_jmpf_of_lt hr, hx, BitVec.ofNat_eq_ofNat, BitVec.toInt_zero, Int.add_zero]

theorem exec_jmpb_of_zero (hr : r.toNat < 32) (hx : s.x[r.toNat] = 0) : exec (.jmpb r) s = jumpTo s (relBaseOf s) := by
  rw [exec_jmpb_of_lt hr, hx, BitVec.ofNat_eq_ofNat, BitVec.toInt_zero, Int.sub_zero]

theorem jumpTo_relBaseOf_next (h : s.params.relBase = .next) (hpc : s.pc.toNat + 2 ≤ 4294967295) :
    jumpTo s (relBaseOf s) = .next { s with pc := s.pc + 2 } := by
  have hbase : relBaseOf s = (s.pc.toNat + 2 : Nat) := by rw [relBaseOf, if_pos h, Nat.cast_add, Nat.cast_ofNat]
  rw [hbase, jumpTo_natCast s hpc, BitVec.ofNat_add, BitVec.ofNat_toNat, BitVec.setWidth_eq]
  rfl

theorem jumpTo_relBaseOf_self (h : s.params.relBase = .self) : jumpTo s (relBaseOf s) = .next s := by
  have hbase : relBaseOf s = s.pc.toNat := by simp [relBaseOf, h]
  rw [hbase, jumpTo_natCast s (Nat.le_of_lt_succ s.pc.isLt), BitVec.ofNat_toNat, BitVec.setWidth_eq]

/-- Settles O42: it holds, since the target is then the base: the next instruction under NEXT, the jump itself under SELF. -/
theorem relativeBase : Obligations.RelativeBase := by
  intro s r hr hx hpc
  rw [exec_jmpf_of_zero hr hx, exec_jmpb_of_zero hr hx]
  refine ⟨fun hnext => ?_, fun hself => ?_⟩
  · exact ⟨jumpTo_relBaseOf_next hnext hpc, jumpTo_relBaseOf_next hnext hpc⟩
  · exact ⟨jumpTo_relBaseOf_self hself, jumpTo_relBaseOf_self hself⟩

end Sys2Proof.Proofs
end

section
/-! Comparison: `cmp` becomes the result, whatever it was, and nothing else but `pc` changes: O43 to O47. -/

namespace Sys2Proof.Proofs

open Sys2Proof.Machine Sys2Proof.Claims Sys2Proof.Laws

variable {s : State} {name : List Char} {op : Byte} {mk : Byte → Byte → Instr} {test : Int → Int → Bool}

/-- The common form of rule R90 with existing registers: the left operand's value comes first. -/
theorem compareWith_of_lt {wordTest : Word → Word → Bool} {r1 r2 : Byte} (h1 : r1.toNat < 32) (h2 : r2.toNat < 32) :
    compareWith wordTest r1 r2 s =
      .next { s with cmp := wordTest s.x[r1.toNat] s.x[r2.toNat], pc := s.pc + 3 } := by
  rw [compareWith, withReg_of_lt h1, withReg_of_lt h2]
  rfl

/-- An instruction of the common form that tests the signed values of its registers follows the rule of that test. -/
theorem compareRule_of_exec (hasm : ∀ r1 r2, asmText (mk r1 r2) = some (name ++ regText r1 ++ regText r2))
    (henc : ∀ r1 r2, encode .spec (mk r1 r2) = some [op, r1, r2])
    (hexec : ∀ s r1 r2, exec (mk r1 r2) s = compareWith (fun a b => test a.toInt b.toInt) r1 r2 s) :
    compareRule name op mk test := by
  refine fun s r1 r2 => ⟨hasm r1 r2, henc r1 r2, fun b hb => ?_, fun h1 h2 => ?_⟩
  · rw [hexec]
    exact compareWith_of_firstBad hb
  · rw [hexec]
    exact compareWith_of_lt h1 h2

/-- Settles O43: it holds, since EQ has the common form with equality. -/
theorem eqRule : Obligations.EqRule :=
  compareRule_of_exec (fun _ _ => rfl) (fun _ _ => rfl) fun _ _ _ => rfl

/-- Settles O44: it holds, since GT has the common form with `>`. -/
theorem gtRule : Obligations.GtRule :=
  compareRule_of_exec (fun _ _ => rfl) (fun _ _ => rfl) fun _ _ _ => rfl

/-- Settles O45: it holds, since GTE has the common form with `≥`. -/
theorem gteRule : Obligations.GteRule :=
  compareRule_of_exec (fun _ _ => rfl) (fun _ _ => rfl) fun _ _ _ => rfl

/-- Settles O46: it holds, since NOT writes the inverted `cmp` and goes on past its one byte. -/
theorem notRule : Obligations.NotRule := ⟨rfl, rfl, fun _ => rfl⟩

/-! ### Relations from one comparison, or from one and NOT (rule R95) -/

theorem exists_exec_of_compareRule (h : compareRule name op mk test) {r1 r2 : Byte} (h1 : r1.toNat < 32)
    (h2 : r2.toNat < 32) {c : Bool} (hc : test s.x[r1.toNat].toInt s.x[r2.toNat].toInt = c) :
    ∃ t, exec (mk r1 r2) s = .next t ∧ t.cmp = c := by
  obtain ⟨-, -, -, hexec⟩ := h s r1 r2
  exact ⟨_, hexec h1 h2, hc⟩

theorem exists_exec_not_of_compareRule (h : compareRule name op mk test) {r1 r2 : Byte} (h1 : r1.toNat < 32)
    (h2 : r2.toNat < 32) {c : Bool} (hc : (!test s.x[r1.toNat].toInt s.x[r2.toNat].toInt) = c) :
    ∃ t u, exec (mk r1 r2) s = .next t ∧ exec .not t = .next u ∧ u.cmp = c := by
  obtain ⟨t, ht, hcmp⟩ := exists_exec_of_compareRule h h1 h2 rfl
  obtain ⟨-, -, hnot⟩ := notRule
  exact ⟨t, _, ht, hnot t, (congrArg not hcmp).trans hc⟩

theorem not_decide_le (a b : Int) : (!decide (b ≤ a)) = decide (a < b) := by
  rw [← decide_not, decide_eq_decide, Int.not_le]

theorem not_decide_lt (a b : Int) : (!decide (b < a)) = decide (a ≤ b) := by
  rw [← decide_not, decide_eq_decide, Int.not_lt]

/-- Settles O47: it holds, since `≠`, `<` and `≤` are the negations of `=`, `≥` and `>`, and the last two swapped are `≤` and
`<`. -/
theorem missingRelations : Obligations.MissingRelations := fun _ _ _ ha hb =>
  ⟨exists_exec_not_of_compareRule eqRule ha hb (decide_not ..).symm,
   exists_exec_of_compareRule gtRule hb ha rfl,
   exists_exec_not_of_compareRule gteRule ha hb (not_decide_le ..),
   exists_exec_of_compareRule gteRule hb ha rfl,
   exists_exec_not_of_compareRule gtRule ha hb (not_decide_lt ..)⟩

end Sys2Proof.Proofs
end

section
/-! HALT and the illegal opcode (rules R96, R97): O48 and O49. -/

namespace Sys2Proof.Proofs

open Sys2Proof.Machine Sys2Proof.Claims Sys2Proof.Laws

/-- Settles O48: it holds. HALT halts past its byte, a Halted core stays as it is, and exhaustion does not move `pc`. -/
theorem haltRule : Obligations.HaltRule :=
  ⟨rfl, rfl, fun s => ⟨rfl, step_of_halted rfl, exhaustionHalts s⟩⟩

/-- Rule R52 read for the undefined bytes: the table of this spec ends at 0x0E. -/
theorem decodeOpcode_spec_eq_none_iff (op : Byte) : decodeOpcode .spec op = none ↔ 15 ≤ op.toNat := by
  rw [opcodeMapTable op]
  exact List.getElem?_eq_none_iff

theorem exec_illegal (s : State) (op : Byte) : exec (.illegal op) s = .next (faultState s 1 (op.setWidth 32)) := rfl

/-- Settles O49: it holds, since the fetch unit hands a byte outside the opcode map to ILLEGAL, which always faults. -/
theorem illegalRule : Obligations.IllegalRule := by
  refine ⟨decodeOpcode_spec_eq_none_iff, fun s op => ⟨exec_illegal s op, fun hrun hop hd => ?_⟩⟩
  rw [step_of_instr hrun (fetch_of_illegal hop hd), exec_illegal]

end Sys2Proof.Proofs
end

section
/-! Faults against the table of rule R101, in the order of priority of rule R105: O23 and O24. -/

namespace Sys2Proof.Proofs

open Sys2Proof.Machine Sys2Proof.Claims Sys2Proof.Laws

variable {s t : State} {i : Instr} {r r1 r2 rd : Byte} {code : BitVec 8} {info : BitVec 32}

/-! ### Register bytes that all name registers -/

theorem lt_of_firstBad_eq_none {bs : List Byte} (h : firstBad bs = none) : ∀ b ∈ bs, b.toNat < 32 := by
  simpa [firstBad] using h

theorem lt_of_firstBad_single (h : firstBad [r] = none) : r.toNat < 32 := by
  simpa using lt_of_firstBad_eq_none h

theorem lt_of_firstBad_pair (h : firstBad [r1, r2] = none) : r1.toNat < 32 ∧ r2.toNat < 32 := by
  simpa using lt_of_firstBad_eq_none h

theorem lt_of_firstBad_triple (h : firstBad [r1, r2, rd] = none) : r1.toNat < 32 ∧ r2.toNat < 32 ∧ rd.toNat < 32 := by
  simpa using lt_of_firstBad_eq_none h

theorem regValue_eq_toInt (h : r.toNat < 32) : regValue s r = s.x[r.toNat].toInt := regValue_of_lt h

/-! ### What the execute stage does, by what the statements call its target or its result -/

theorem exec_of_takenTarget {a : Int} (hreg : firstBad (regBytes i) = none) (h : takenTarget s i = some a) :
    exec i s = jumpTo s a := by
  cases i with
  | jmp r =>
    have hr := lt_of_firstBad_single hreg
    rw [exec_jmp_of_lt hr, ← regValue_eq_toInt hr, Option.some.inj h]
  | jmpf r =>
    have hr := lt_of_firstBad_single hreg
    rw [exec_jmpf_of_lt hr, ← regValue_eq_toInt hr, Option.some.inj h]
  | jmpb r =>
    have hr := lt_of_firstBad_single hreg
    rw [exec_jmpb_of_lt hr, ← regValue_eq_toInt hr, Option.some.inj h]
  | jmpif r =>
    have hr := lt_of_firstBad_single hreg
    obtain ⟨hcmp, ha⟩ := Option.ite_none_right_eq_some.1 h
    rw [exec_jmpif_of_lt hr, if_pos hcmp, ← regValue_eq_toInt hr, Option.some.inj ha]
  | halt | not | illegal | eq | gt | gte | add | sub | mul | div | pow | load => cases h

/-- The answer to an instruction with the exact result `m`: ArithmeticOverflow when `m` does not fit under FAULT, and no fault
otherwise (rule R76). -/
structure Narrows (s : State) (m : Int) (r : Result) : Prop where
  overflows : s.params.overflowMode = .fault → ¬ inRange32 m → r = .next (faultState s 7 0)
  completes : s.params.overflowMode = .wrap ∨ inRange32 m → ∃ t, r = .next t ∧ t.faultCause = s.faultCause

theorem narrows_writeResult (s : State) (d : RegIdx) (m : Int) :
    Narrows s m (writeResult s d (arith32 s.params.overflowMode m)) where
  overflows := writeResult_of_fault_of_not_inRange32
  completes h := ⟨_, writeResult_of_wrap_or_inRange32 h, rfl⟩

theorem narrows_withRRR (f : Int → Int → Int) (h : firstBad [r1, r2, rd] = none) :
    Narrows s (f (regValue s r1) (regValue s r2))
      (withRRR r1 r2 rd s fun a b d => writeResult s d (arith32 s.params.overflowMode (f a.toInt b.toInt))) := by
  obtain ⟨h1, h2, hd⟩ := lt_of_firstBad_triple h
  rw [withRRR_of_lt h1 h2 hd, regValue_eq_toInt h1, regValue_eq_toInt h2]
  exact narrows_writeResult s _ _

theorem narrows_div (h : firstBad [r1, r2, rd] = none) (hb : regValue s r2 ≠ 0) :
    Narrows s ((regValue s r1).tdiv (regValue s r2)) (exec (.div r1 r2 rd) s) := by
  obtain ⟨h1, h2, hd⟩ := lt_of_firstBad_triple h
  rw [regValue_eq_toInt h2] at hb ⊢
  rw [regValue_eq_toInt h1]
  exact ⟨exec_div_of_fault_of_not_inRange32 h1 h2 hd hb,
    fun hq => ⟨_, exec_div_of_wrap_or_inRange32 h1 h2 hd hb hq, rfl⟩⟩

theorem narrows_pow (h : firstBad [r1, r2, rd] = none) (he : 0 ≤ regValue s r2) :
    Narrows s (regValue s r1 ^ (regValue s r2).toNat) (exec (.pow r1 r2 rd) s) := by
  obtain ⟨h1, h2, hd⟩ := lt_of_firstBad_triple h
  rw [regValue_eq_toInt h2] at he ⊢
  rw [exec_pow_of_nonneg h1 h2 hd he, regValue_eq_toInt h1]
  exact narrows_writeResult s _ _

theorem narrows_of_exactResult {m : Int} (hreg : firstBad (regBytes i) = none) (h : exactResult s i = some m) :
    Narrows s m (exec i s) := by
  cases i with
  | add r1 r2 rd =>
    obtain rfl := Option.some.inj h
    exact narrows_withRRR (fun a b => a + b) hreg
  | sub r1 r2 rd =>
    obtain rfl := Option.some.inj h
    exact narrows_withRRR (fun a b => a - b) hreg
  | mul r1 r2 rd =>
    obtain rfl := Option.some.inj h
    exact narrows_withRRR (fun a b => a * b) hreg
  | div r1 r2 rd =>
    obtain ⟨hb, hm⟩ := Option.ite_none_left_eq_some.1 h
    obtain rfl := Option.some.inj hm
    exact narrows_div hreg hb
  | pow r1 r2 rd =>
    obtain ⟨he, hm⟩ := Option.ite_none_left_eq_some.1 h
    obtain rfl := Option.some.inj hm
    exact narrows_pow hreg (Int.not_lt.1 he)
  | halt | not | illegal | eq | gt | gte | jmp | jmpf | jmpb | jmpif | load => cases h

theorem exec_div_of_regValue_zero (h : firstBad [r1, r2, rd] = none) (hb : regValue s r2 = 0) :
    exec (.div r1 r2 rd) s = .next (faultState s 2 0) := by
  obtain ⟨h1, h2, hd⟩ := lt_of_firstBad_triple h
  exact exec_div_of_zero h1 h2 hd (regValue_eq_toInt h2 ▸ hb)

theorem exec_pow_of_regValue_neg (h : firstBad [r1, r2, rd] = none) (he : regValue s r2 < 0) :
    exec (.pow r1 r2 rd) s = .next (faultState s 3 0) := by
  obtain ⟨h1, h2, hd⟩ := lt_of_firstBad_triple h
  exact exec_pow_of_neg h1 h2 hd (regValue_eq_toInt h2 ▸ he)

/-! ### A row of the table that applies is the step's fault -/

theorem code_ne_zero_of_faultReason (h : faultReason s code info) : code ≠ 0 := by
  rcases h with ⟨rfl, -⟩ | ⟨rfl, -⟩ | ⟨rfl, -⟩ | ⟨rfl, -⟩ | ⟨rfl, -⟩ | ⟨rfl, -⟩ | ⟨rfl, -⟩ <;> decide

theorem step_of_faultReason (hr : s.runState = .running) (h : faultReason s code info) :
    step s = .next (faultState s code info) := by
  rcases h with ⟨rfl, op, hop, hd, rfl⟩ | ⟨rfl, rfl, r1, r2, rd, hf, hreg, hb⟩ | ⟨rfl, rfl, r1, r2, rd, hf, hreg, he⟩ |
    ⟨rfl, i, b, hf, hb, rfl⟩ | ⟨rfl, rfl, op, k, hop, hd, hL⟩ | ⟨rfl, rfl, i, a, hf, hreg, ha, hrange⟩ |
    ⟨rfl, rfl, hmode, i, m, hf, hreg, hm, hrange⟩
  · rw [step_of_instr hr (fetch_of_illegal hop hd), exec_illegal]
  · rw [step_of_instr hr hf, exec_div_of_regValue_zero hreg hb]
  · rw [step_of_instr hr hf, exec_pow_of_regValue_neg hreg he]
  · rw [step_of_instr hr hf, registerIndexIsChecked i s b hb]
  · exact step_of_overrun hr ((fetch_of_opcode hop hd).trans (fetchOperands_overrun hL))
  · rw [step_of_instr hr hf, exec_of_takenTarget hreg ha]
    exact jumpTo_out_of_range s hrange
  · rw [step_of_instr hr hf]
    exact (narrows_of_exactResult hreg hm).overflows hmode hrange

/-! ### A fault of the step is a row of the table that applies -/

/-- The answer is a next state that raises no fault, or one that a row of the table of rule R101 gives. -/
def Tabled (s : State) (r : Result) : Prop :=
  ∃ t, r = .next t ∧ (t.faultCause = s.faultCause ∨ ∃ code info, faultReason s code info ∧ t = faultState s code info)

theorem tabled_of_faultCause_eq (h : t.faultCause = s.faultCause) : Tabled s (.next t) := ⟨t, rfl, .inl h⟩

theorem tabled_of_faultReason (h : faultReason s code info) : Tabled s (.next (faultState s code info)) :=
  ⟨_, rfl, .inr ⟨code, info, h, rfl⟩⟩

/-- ILLEGAL is fetched only for an opcode byte that decodes to nothing. -/
theorem illegal_of_fetch {op : Byte} (hf : fetch s = .instr (.illegal op)) :
    memRead s s.pc.toNat = some op ∧ decodeOpcode s.params op = none := by
  rcases fetch_cases s with ⟨-, h⟩ | ⟨hL, ⟨hd, h⟩ | ⟨k, -, ⟨-, h⟩ | ⟨-, i, hk, h⟩⟩⟩
  · simp [hf] at h
  · obtain rfl : op = _ := by simpa [hf] using h
    exact ⟨memRead_of_lt hL, hd⟩
  · simp [hf] at h
  · obtain rfl : _ = i := by simpa [hf] using h
    cases hk

theorem jumpTo_tabled {a : Int} (hf : fetch s = .instr i) (hreg : firstBad (regBytes i) = none)
    (ha : takenTarget s i = some a) : Tabled s (jumpTo s a) := by
  unfold jumpTo
  split
  · next hrange =>
    exact tabled_of_faultReason (.inr (.inr (.inr (.inr (.inr (.inl ⟨rfl, rfl, i, a, hf, hreg, ha, hrange⟩))))))
  · exact tabled_of_faultCause_eq rfl

theorem Narrows.tabled {m : Int} {r : Result} (h : Narrows s m r) (hf : fetch s = .instr i)
    (hreg : firstBad (regBytes i) = none) (hm : exactResult s i = some m) : Tabled s r := by
  by_cases hfits : s.params.overflowMode = .wrap ∨ inRange32 m
  · obtain ⟨t, rfl, ht⟩ := h.completes hfits
    exact tabled_of_faultCause_eq ht
  · obtain ⟨hwrap, hrange⟩ := not_or.1 hfits
    have hmode : s.params.overflowMode = .fault := by
      cases hp : s.params.overflowMode with
      | wrap => exact absurd hp hwrap
      | fault => rfl
    rw [h.overflows hmode hrange]
    exact tabled_of_faultReason (.inr (.inr (.inr (.inr (.inr (.inr ⟨rfl, rfl, hmode, i, m, hf, hreg, hm, hrange⟩))))))

/-- What is left without a taken jump and without an exact result: DIV by zero, POW with a negative exponent and ILLEGAL raise
their own faults, and the other instructions raise none. -/
theorem exec_tabled_of_no_result (hf : fetch s = .instr i) (hreg : firstBad (regBytes i) = none)
    (htarget : takenTarget s i = none) (hresult : exactResult s i = none) : Tabled s (exec i s) := by
  cases i with
  | illegal op =>
    obtain ⟨hop, hd⟩ := illegal_of_fetch hf
    exact tabled_of_faultReason (.inl ⟨rfl, op, hop, hd, rfl⟩)
  | div r1 r2 rd =>
    have hb : regValue s r2 = 0 := by simpa [exactResult] using hresult
    rw [exec_div_of_regValue_zero hreg hb]
    exact tabled_of_faultReason (.inr (.inl ⟨rfl, rfl, r1, r2, rd, hf, hreg, hb⟩))
  | pow r1 r2 rd =>
    have he : regValue s r2 < 0 := by simpa [exactResult] using hresult
    rw [exec_pow_of_regValue_neg hreg he]
    exact tabled_of_faultReason (.inr (.inr (.inl ⟨rfl, rfl, r1, r2, rd, hf, hreg, he⟩)))
  | jmpif r =>
    have hcmp : ¬ s.cmp := by simpa [takenTarget] using htarget
    rw [exec_jmpif_of_lt (lt_of_firstBad_single hreg), if_neg hcmp]
    exact tabled_of_faultCause_eq rfl
  | load r v =>
    rw [exec_load_of_lt (lt_of_firstBad_single hreg)]
    exact tabled_of_faultCause_eq rfl
  | eq | gt | gte =>
    obtain ⟨h1, h2⟩ := lt_of_firstBad_pair hreg
    exact ⟨_, compareWith_of_lt h1 h2, .inl rfl⟩
  | halt | not => exact tabled_of_faultCause_eq rfl
  | jmp | jmpf | jmpb => cases htarget
  | add | sub | mul => cases hresult

/-- The execution of the fetched instruction, in the order of priority: the register check, then the execute stage. -/
theorem exec_tabled (hf : fetch s = .instr i) : Tabled s (exec i s) := by
  cases hreg : firstBad (regBytes i) with
  | some b =>
    rw [registerIndexIsChecked i s b hreg]
    exact tabled_of_faultReason (.inr (.inr (.inr (.inl ⟨rfl, i, b, hf, hreg, rfl⟩))))
  | none =>
    cases htarget : takenTarget s i with
    | some a => exact exec_of_takenTarget hreg htarget ▸ jumpTo_tabled hf hreg htarget
    | none =>
      cases hresult : exactResult s i with
      | some m => exact (narrows_of_exactResult hreg hresult).tabled hf hreg hresult
      | none => exact exec_tabled_of_no_result hf hreg htarget hresult

theorem step_tabled (hr : s.runState = .running) : Tabled s (step s) := by
  rcases fetch_cases s with ⟨hL, -⟩ | ⟨hL, ⟨-, hf⟩ | ⟨k, hd, ⟨hlong, hf⟩ | ⟨-, i, -, hf⟩⟩⟩
  · exact step_of_exhausted hr hL ▸ tabled_of_faultCause_eq rfl
  · exact step_of_instr hr hf ▸ exec_tabled hf
  · rw [step_of_overrun hr hf]
    exact tabled_of_faultReason
      (.inr (.inr (.inr (.inr (.inl ⟨rfl, rfl, s.prog.read s.pc.toNat, k, memRead_of_lt hL, hd, hlong⟩)))))
  · exact step_of_instr hr hf ▸ exec_tabled hf

/-- Settles O23: it holds, since a step from a state without a fault either leaves the cause clear or takes a row of the table. -/
theorem faultsArePrecise : Obligations.FaultsArePrecise := by
  intro s t hr hclear hs hfault
  obtain ⟨u, hu, hcases⟩ := step_tabled hr
  obtain rfl : u = t := by simpa [hu] using hs
  rcases hcases with hsame | ⟨code, info, hreason, rfl⟩
  · exact absurd (hsame.trans hclear) hfault
  · exact ⟨rfl, hreason⟩

/-- Settles O24: it holds. Every row that applies is the fault of the step, and every fault of the step is such a row. -/
theorem faultsExactlyAsTabled : Obligations.FaultsExactlyAsTabled := by
  refine fun s code info hr hclear => ⟨?_, fun h => ?_⟩
  · rintro ⟨t, hs, rfl, rfl, hfault⟩
    obtain ⟨-, hreason⟩ := faultsArePrecise s t hr hclear hs hfault
    exact hreason
  · exact ⟨_, step_of_faultReason hr h, rfl, rfl, code_ne_zero_of_faultReason h⟩

end Sys2Proof.Proofs
end

section
/-! Reset and install: what reset puts everywhere (O1), and that every launch starts in the invariant (O6). -/

namespace Sys2Proof.Proofs

open Sys2Proof.Machine Sys2Proof.Claims Sys2Proof.Laws

/-! ### Every launch starts in the invariant -/

/-- The bytes of an admitted launch are all placed below `L`, in canonical form, under an admitted opcode map. -/
theorem launchInv_installed {p : Params} {bytes : List Byte} (hp : p.wf = true) (hlen : bytes.length ≤ 4294967295) :
    (installed p bytes).LaunchInv := by
  have hwf : (Memory.writeBytes [] 0 bytes).wf = true := Memory.wf_writeBytes 0 bytes rfl
  have hbelow : (Memory.writeBytes [] 0 bytes).all (fun c => decide (c.1 < (installed p bytes).progLen.toNat)) = true :=
    Memory.all_lt_writeBytes 0 bytes (by rw [installed_progLen hlen, Nat.zero_add]) rfl
  exact ⟨hp, hwf, hbelow⟩

/-- Settles O6: it holds; an installed program is an admitted launch, and the reset that comes with it clears the fault status. -/
theorem installedMeetsInvariant : Obligations.InstalledMeetsInvariant := by
  intro p bytes s h
  obtain ⟨hp, hlen, rfl⟩ := install_eq_some_iff.1 h
  exact ⟨launchInv_installed hp hlen, statusInv_of_no_fault rfl rfl⟩

/-! ### The values of reset -/

theorem reset_x (i : Fin 32) : State.reset.x[i] = 0 :=
  Vector.getElem_replicate i.isLt

/-- Settles O1: it holds, since `applyReset` takes the architectural state from the model's reset state, and only the launch from
the state before. -/
theorem resetPutsEveryRegister : Obligations.ResetPutsEveryRegister := by
  rintro s t (rfl | rfl) <;> exact ⟨reset_x, rfl, rfl, rfl, rfl, rfl, rfl⟩

end Sys2Proof.Proofs
end

section
/-! The words of the test vectors that O9 names. -/

namespace Sys2Proof.Proofs

open Sys2Proof.Machine Sys2Proof.Claims Sys2Proof.Laws

/-- The byte of an admitted instruction and its operand bytes, put before any bytes, are read as that instruction (rule R50). -/
theorem decode_code_operands {p : Params} {i : Instr} {k : Opcode} (hp : p.wf = true) (hadm : p.jumpSet.admits k = true)
    (hk : i.opcode = some k) (rest : List Byte) :
    decode p (p.opcodeMap.code k :: (i.operands ++ rest)) = .ok (i, rest) :=
  decode_of_takeOperands (decodeOpcode_code hp hadm) (takeOperands_operands hk rest)

/-- Settles O9: it holds; the first five words are the byte and the operands of their instructions under the map of rule R52, and
0x29 lies beyond its table. -/
theorem wordsDecodeAsWritten : Obligations.WordsDecodeAsWritten := by
  have word {i : Instr} {k : Opcode} (hk : i.opcode = some k) :
      decode .spec (OpcodeMap.spec.code k :: (i.operands ++ [])) = .ok (i, []) :=
    decode_code_operands (p := .spec) (by decide) rfl hk []
  have unassigned : decodeOpcode .spec 0x29 = none := opcodeMapTable 0x29
  exact ⟨word (i := .halt) rfl, word (i := .jmp 31) rfl, word (i := .gte 30 31) rfl, word (i := .mul 1 2 1) rfl,
    word (i := .load 0 0x1234) rfl, decode_of_illegal unassigned _⟩

end Sys2Proof.Proofs
end
